-- ==== Sys2Proof/Word.lean ====
section
/-! DEFINITION. The words the machine works on (00_scope.md R6, R8; 10_state.md R10). -/

namespace Sys2Proof

/-- One byte of the instruction space (10_state.md R20). -/
abbrev Byte := BitVec 8

/-- One 32-bit element `R.W[x]` of a general register (00_scope.md R8). -/
abbrev Elem := BitVec 32

/-- One 32-bit instruction word (30_encoding.md R33). -/
abbrev Word32 := BitVec 32

/-- The container of an `XLEN`-bit value (a register, the program counter, an address). On RV64 all 64 bits are
the value; on RV32 the value is the low 32 bits and every accessor of `Sys2Proof/Machine/Ops.lean` reads and
writes the other bits as zero (log 2, DESIGN CHOICE). -/
abbrev XWord := BitVec 64

end Sys2Proof
end

