-- ==== Sys2Proof/Config.lean ====
section
/-! DEFINITION. The parameters of the step relation (00_scope.md R5) and the constants an implementation fixes. -/

namespace Sys2Proof

/-- The two register widths of the source, `RV32` and `RV64` (00_scope.md R2, R5). -/
inductive Xlen where
  | rv32
  | rv64
deriving DecidableEq, Repr

/-- `XLEN`: the width in bits of every general register (00_scope.md R5). -/
def Xlen.bits : Xlen → Nat
  | .rv32 => 32
  | .rv64 => 64

/-- `NELEM = XLEN/32`: how many 32-bit elements a register has (00_scope.md R5). -/
def Xlen.nelem : Xlen → Nat
  | .rv32 => 1
  | .rv64 => 2

/-- The width that is not this one. -/
def Xlen.other : Xlen → Xlen
  | .rv32 => .rv64
  | .rv64 => .rv32

/-- The values of the parameter `SMMUL_OPP_ON_RV32` (00_scope.md R5, 30_encoding.md R38). -/
inductive OppPolicy where
  | refuse
  | accept
deriving DecidableEq, Repr

/-- The table `ENC`: for each mnemonic the match value of its words under the one mask of 30_encoding.md R37. It is
a parameter of the model (00_scope.md R5); its default value is `defaultEnc` in `Sys2Proof/Decode.lean`. -/
structure Enc where
  kmmac : Word32
  kmmacU : Word32
  kmmsb : Word32
  kmmsbU : Word32
  kwmmul : Word32
  kwmmulU : Word32
  smmul : Word32
  smmulU : Word32
deriving DecidableEq, Repr

/-- The parameters of the step relation (00_scope.md R5, 10_state.md R22): `XLEN`, `ENC`, `SMMUL_OPP_ON_RV32`,
`ENTRY`, and of `PROGRAM` its length in words (its words stand in the instruction memory). No step changes them. -/
structure Params where
  xlen : Xlen
  enc : Enc
  smmulOppOnRv32 : OppPolicy
  entry : XWord
  textLen : Nat
deriving DecidableEq, Repr

/-- Where software outside the spec's scope finds `OV`: the address and the bit of a control register. -/
structure OvHome where
  address : Nat
  bit : Nat
deriving DecidableEq, Repr, Inhabited

/-- The parameter `OV_HOME`, open and used by no rule (00_scope.md R5, 10_state.md R17; log 8): it has no value
here, and nothing in the model reads it. -/
opaque Config.ovHome : OvHome

end Sys2Proof
end

