-- ==== Sys2Proof/Syntax.lean ====
section
/-! DEFINITION. The instructions as syntax: the eight of 00_scope.md R1, in the source's order. -/

namespace Sys2Proof

/-- The index of a general register, `0 .. 31` (10_state.md R10, 30_encoding.md R35). -/
abbrev Reg := Fin 32

/-- The eight instructions, each with the operands of its Syntax line `Rd, Rs1, Rs2` (30_encoding.md R40). The two
`smmul` rows of the opcode table are two words of the one instruction `smmul` (30_encoding.md R38, R39; log 19). -/
inductive Instr where
  | kmmac (rd rs1 rs2 : Reg)
  | kmmacU (rd rs1 rs2 : Reg)
  | kmmsb (rd rs1 rs2 : Reg)
  | kmmsbU (rd rs1 rs2 : Reg)
  | kwmmul (rd rs1 rs2 : Reg)
  | kwmmulU (rd rs1 rs2 : Reg)
  | smmul (rd rs1 rs2 : Reg)
  | smmulU (rd rs1 rs2 : Reg)
deriving DecidableEq, Repr

/-- The destination register `Rd`. -/
def Instr.rd : Instr → Reg
  | .kmmac rd _ _ => rd
  | .kmmacU rd _ _ => rd
  | .kmmsb rd _ _ => rd
  | .kmmsbU rd _ _ => rd
  | .kwmmul rd _ _ => rd
  | .kwmmulU rd _ _ => rd
  | .smmul rd _ _ => rd
  | .smmulU rd _ _ => rd

/-- The first source register `Rs1`. -/
def Instr.rs1 : Instr → Reg
  | .kmmac _ rs1 _ => rs1
  | .kmmacU _ rs1 _ => rs1
  | .kmmsb _ rs1 _ => rs1
  | .kmmsbU _ rs1 _ => rs1
  | .kwmmul _ rs1 _ => rs1
  | .kwmmulU _ rs1 _ => rs1
  | .smmul _ rs1 _ => rs1
  | .smmulU _ rs1 _ => rs1

/-- The second source register `Rs2`. -/
def Instr.rs2 : Instr → Reg
  | .kmmac _ _ rs2 => rs2
  | .kmmacU _ _ rs2 => rs2
  | .kmmsb _ _ rs2 => rs2
  | .kmmsbU _ _ rs2 => rs2
  | .kwmmul _ _ rs2 => rs2
  | .kwmmulU _ _ rs2 => rs2
  | .smmul _ _ rs2 => rs2
  | .smmulU _ _ rs2 => rs2

/-- The instruction with its two source registers exchanged (40_lane_arithmetic.md R46). -/
def Instr.swapSources : Instr → Instr
  | .kmmac rd rs1 rs2 => .kmmac rd rs2 rs1
  | .kmmacU rd rs1 rs2 => .kmmacU rd rs2 rs1
  | .kmmsb rd rs1 rs2 => .kmmsb rd rs2 rs1
  | .kmmsbU rd rs1 rs2 => .kmmsbU rd rs2 rs1
  | .kwmmul rd rs1 rs2 => .kwmmul rd rs2 rs1
  | .kwmmulU rd rs1 rs2 => .kwmmulU rd rs2 rs1
  | .smmul rd rs1 rs2 => .smmul rd rs2 rs1
  | .smmulU rd rs1 rs2 => .smmulU rd rs2 rs1

/-- Whether the instruction reads its destination register too, as the accumulator (10_state.md R12). -/
def Instr.readsRd : Instr → Bool
  | .kmmac .. => true
  | .kmmacU .. => true
  | .kmmsb .. => true
  | .kmmsbU .. => true
  | .kwmmul .. => false
  | .kwmmulU .. => false
  | .smmul .. => false
  | .smmulU .. => false

/-- Whether the instruction can write `OV` (10_state.md R16). -/
def Instr.canSetOv : Instr → Bool
  | .kmmac .. => true
  | .kmmacU .. => true
  | .kmmsb .. => true
  | .kmmsbU .. => true
  | .kwmmul .. => true
  | .kwmmulU .. => true
  | .smmul .. => false
  | .smmulU .. => false

end Sys2Proof
end

