-- ==== Sys2Proof/Decode.lean ====
section
/-! DEFINITION. The words of the instructions: the table ENC, the decoder of 30_encoding.md R39, bytes, and the
encoder written from the same table. -/

namespace Sys2Proof

/-- The mask of every row of `ENC`: `funct7`, `funct3` and `opcode` (30_encoding.md R37). -/
def encMask : Word32 := 0xFE00707F

/-- The default value of `ENC` (30_encoding.md R37; log 6, UNVERIFIED). -/
def defaultEnc : Enc where
  kmmac := 0x60001077
  kmmacU := 0x70001077
  kmmsb := 0x42001077
  kmmsbU := 0x52001077
  kwmmul := 0x62001077
  kwmmulU := 0x72001077
  smmul := 0x40001077
  smmulU := 0x50001077

/-- The match value of the `mulh` word, which is `smmul` on RV32 (30_encoding.md R38). -/
def mulhMatch : Word32 := 0x02001033

/-- The parameters `State.reset` starts with: RV64 (log 1), the default `ENC` (log 6), `SMMUL_OPP_ON_RV32 = refuse`
(the spec's default, log 7), `ENTRY = 0` and the empty `PROGRAM` (log 5). -/
def resetParams : Params where
  xlen := .rv64
  enc := defaultEnc
  smmulOppOnRv32 := .refuse
  entry := 0
  textLen := 0

/-- `rd = uint(word[11:7])` (30_encoding.md R35). -/
def rdOf (w : Word32) : Reg := (w.extractLsb' 7 5).toFin

/-- `rs1 = uint(word[19:15])` (30_encoding.md R35). -/
def rs1Of (w : Word32) : Reg := (w.extractLsb' 15 5).toFin

/-- `rs2 = uint(word[24:20])` (30_encoding.md R35). -/
def rs2Of (w : Word32) : Reg := (w.extractLsb' 20 5).toFin

/-- Why bits are not an instruction of the model. -/
inductive DecodeError where
  /-- The `Unknown(w)` of 30_encoding.md R39. -/
  | unknownWord (w : Word32)
  /-- Fewer than the four bytes of a word were given (30_encoding.md R33). -/
  | tooFewBytes (given : Nat)
deriving DecidableEq, Repr

/-- The decoder of 30_encoding.md R39, over the table `ENC` it takes as a parameter. -/
def decode (p : Params) (w : Word32) : Except DecodeError Instr :=
  let rd := rdOf w
  let rs1 := rs1Of w
  let rs2 := rs2Of w
  let k := w &&& encMask
  if k = p.enc.kmmac then .ok (.kmmac rd rs1 rs2)
  else if k = p.enc.kmmacU then .ok (.kmmacU rd rs1 rs2)
  else if k = p.enc.kmmsb then .ok (.kmmsb rd rs1 rs2)
  else if k = p.enc.kmmsbU then .ok (.kmmsbU rd rs1 rs2)
  else if k = p.enc.kwmmul then .ok (.kwmmul rd rs1 rs2)
  else if k = p.enc.kwmmulU then .ok (.kwmmulU rd rs1 rs2)
  else if k = p.enc.smmulU then .ok (.smmulU rd rs1 rs2)
  else if k = p.enc.smmul ∧ (p.xlen = .rv64 ∨ p.smmulOppOnRv32 = .accept) then .ok (.smmul rd rs1 rs2)
  else if k = mulhMatch ∧ p.xlen = .rv32 then .ok (.smmul rd rs1 rs2)
  else .error (.unknownWord w)

/-- A word from four bytes, least significant byte first (20_memory.md R25). -/
def wordOfBytes (b0 b1 b2 b3 : Byte) : Word32 := b3 ++ b2 ++ b1 ++ b0

/-- Byte `k` of a word, counted from the least significant (20_memory.md R25). -/
def byteOfWord (w : Word32) (k : Nat) : Byte := w.extractLsb' (8 * k) 8

/-- The four bytes of a word in the order of their addresses (20_memory.md R25). -/
def bytesOfWord (w : Word32) : List Byte := [byteOfWord w 0, byteOfWord w 1, byteOfWord w 2, byteOfWord w 3]

/-- The instruction at the head of a list of bytes, with the bytes after it (30_encoding.md R33: exactly 32 bits). -/
def decodeBytes (p : Params) : List Byte → Except DecodeError (Instr × List Byte)
  | b0 :: b1 :: b2 :: b3 :: rest =>
    match decode p (wordOfBytes b0 b1 b2 b3) with
    | .ok i => .ok (i, rest)
    | .error e => .error e
  | bs => .error (.tooFewBytes bs.length)

/-- The match value of an instruction's word: its row of `ENC`, and for `smmul` on RV32 the `mulh` word
(30_encoding.md R37, R38; log 19). -/
def matchOf (p : Params) : Instr → Word32
  | .kmmac .. => p.enc.kmmac
  | .kmmacU .. => p.enc.kmmacU
  | .kmmsb .. => p.enc.kmmsb
  | .kmmsbU .. => p.enc.kmmsbU
  | .kwmmul .. => p.enc.kwmmul
  | .kwmmulU .. => p.enc.kwmmulU
  | .smmul .. =>
    match p.xlen with
    | .rv64 => p.enc.smmul
    | .rv32 => mulhMatch
  | .smmulU .. => p.enc.smmulU

/-- A register index in its 5-bit field, as a word. -/
def regField (r : Reg) : Word32 := BitVec.ofNat 32 r.val

/-- A full word: `match or (rs2 << 20) or (rs1 << 15) or (rd << 7)` (30_encoding.md R37). -/
def wordOn (m : Word32) (rd rs1 rs2 : Reg) : Word32 :=
  m ||| (regField rs2 <<< 20) ||| (regField rs1 <<< 15) ||| (regField rd <<< 7)

/-- The word of an instruction (30_encoding.md R37, R38). -/
def encode (p : Params) (i : Instr) : Word32 := wordOn (matchOf p i) i.rd i.rs1 i.rs2

/-- The bytes of an instruction, in the order of their addresses. -/
def encodeBytes (p : Params) (i : Instr) : List Byte := bytesOfWord (encode p i)

/-- The width at which a word is read by `decodeTableWord` and placed by `placeInstr`: the parameters' own, unless
the word is an instruction only at the other one (log 18). -/
def widthFor (p : Params) (w : Word32) : Xlen :=
  match decode p w with
  | .ok _ => p.xlen
  | .error _ =>
    match decode { p with xlen := p.xlen.other } w with
    | .ok _ => p.xlen.other
    | .error _ => p.xlen

/-- The word of `nbits` bits whose value is `w`, with zeros above. -/
def tableWord (nbits w : Nat) : Word32 := BitVec.ofNat 32 (w % 2 ^ nbits)

/-- The instruction the decoder reads from the word `w` of a row of the opcode table, laid out in bytes, under the
reset parameters at the width the row is for (log 18). -/
def decodeTableWord (nbits w : Nat) : Option Instr :=
  let word := tableWord nbits w
  match decodeBytes { resetParams with xlen := widthFor resetParams word } (bytesOfWord word) with
  | .ok (i, _) => some i
  | .error _ => none

end Sys2Proof
end

