-- ==== Sys2Proof/Machine/State.lean ====
section
/-! DEFINITION. The machine's state as one record (10_state.md R22), the reasons a step can stop, and the state after
reset. The spec gives no privilege mode, interrupt mask, control register, accumulator, data memory or hidden state
(10_state.md R18 to R22), so State has none. -/

namespace Sys2Proof.Machine

/-- Why the machine stops without a refusal. No instruction raises either (60_exceptions.md R70); both come from
fetching, in `nextWord` of `Sys2Proof/Machine/Ops.lean`. -/
inductive Fault where
  /-- Raised by the step when `pc` stands just after the last word of the program: "no step; the state is final"
  (44_control_memory_system.md R69, 70_reset_and_hazards.md R84). Safe: the real hart goes on fetching (log 10). -/
  | runOver
  /-- Raised by the step when `Fetch(pc)` has no answer: the hart is stuck (20_memory.md R24). Safe: nothing is
  claimed of what hardware does there (log 11). -/
  | stuck
deriving DecidableEq, Repr

/-- Why the model has no meaning for a situation (00_scope.md R9, `refuse(reason)`). All are safe: they err toward
unprovable. -/
inductive Refusal where
  /-- Raised by the dispatcher for an instruction that has no meaning yet; no instruction is in that case now. -/
  | notModelled (mnemonic : String)
  /-- Raised by the step for a fetched word that is none of the eight instructions (30_encoding.md R43; log 9). -/
  | unknownWord (w : Word32)
  /-- Raised by the step for a program whose text crosses the top of the address space (10_state.md R14; log 12). -/
  | textCrossesTop
  /-- Raised by the step for an `ENTRY` that is not a multiple of 4, which is outside the parameter's domain
  (10_state.md R22, 20_memory.md R26; log 12). -/
  | entryMisaligned
deriving DecidableEq, Repr

/-- A recorded refusal or fault (10_state.md R22, the row "fault / refusal mark"; log 13). -/
inductive Mark where
  | refused (r : Refusal)
  | faulted (f : Fault)
deriving DecidableEq, Repr

/-- The instruction memory: bytes by address, addresses strictly rising. An address not listed has no value, so
`Fetch` has no answer there (10_state.md R20, 20_memory.md R24, R28; log 11). -/
abbrev Memory := List Host.Cell

/-- The canonical form of a memory: addresses strictly rising. -/
def Memory.wf (m : Memory) : Bool := decide ((m.map Prod.fst).Pairwise (· < ·))

/-- The machine's state: the record of 10_state.md R22, and the parameters of the step relation. -/
structure State where
  /-- `XLEN`, `ENC`, `SMMUL_OPP_ON_RV32`, `ENTRY` and the length of `PROGRAM` (00_scope.md R5); never changed by a step. -/
  params : Params
  /-- The instruction memory, where the words of `PROGRAM` stand (20_memory.md R24); never changed by a step. -/
  text : Memory
  /-- `x[0]` .. `x[31]` (10_state.md R10); slot 0 stays zero. -/
  x : Vector XWord 32
  /-- The overflow flag `OV`, one sticky bit (10_state.md R15, R16). -/
  ov : Bool
  /-- `pc`, the byte address of the instruction being executed (10_state.md R13). -/
  pc : XWord
  /-- The fault or refusal recorded, if any (10_state.md R22). -/
  mark : Option Mark
deriving DecidableEq, Repr

/-- The state after reset. The spec gives `x[0] = 0`, `pc = ENTRY` and no mark (10_state.md R22). The values of
`x[1]` .. `x[31]` (log 3), of `OV` (log 4) and of the parameters (log 1, 5, 6, 7) are the model's. -/
def State.reset : State where
  params := resetParams
  text := []
  x := Vector.replicate 32 0
  ov := false
  pc := resetParams.entry
  mark := none

end Sys2Proof.Machine
end

