-- ==== Sys2Proof/Machine/Ops.lean ====
section
/-! DEFINITION. The named operations over registers, the flag, the program counter and the instruction memory;
launching a program, fetching, and placing one instruction. TAKING AN EXCEPTION and the return from one have no
operation here because the spec has neither: "No instruction in scope raises a synchronous exception" (60_exceptions.md
R70), no interrupt is delivered (R72), no trap is ever entered (R73) and there is nothing to return from (R74). -/

namespace Sys2Proof.Machine

/-- The `XLEN`-bit value of a container: on RV32 its low 32 bits (10_state.md R10; log 2). -/
def truncX (xl : Xlen) (v : XWord) : XWord :=
  match xl with
  | .rv32 => (v.setWidth 32).setWidth 64
  | .rv64 => v

/-- The state with other parameters. -/
def setParams (s : State) (p : Params) : State := { s with params := p }

/-- The state with another instruction memory. -/
def setText (s : State) (m : Memory) : State := { s with text := m }

/-- The state with another register vector. -/
def setX (s : State) (x : Vector XWord 32) : State := { s with x := x }

/-- The state with another flag. -/
def setOv (s : State) (b : Bool) : State := { s with ov := b }

/-- The state with another program counter. -/
def setPc (s : State) (v : XWord) : State := { s with pc := v }

/-- The state with another mark. -/
def setMark (s : State) (m : Option Mark) : State := { s with mark := m }

/-! ### Registers, flag, program counter -/

/-- `x[i]` as an `XLEN`-bit value; `x[0]` reads as zero (00_scope.md R9, 10_state.md R11). -/
def readX (s : State) (i : Reg) : XWord :=
  if i = 0 then 0 else truncX s.params.xlen s.x[i]

/-- `x[i] <- v`, discarded when `i = 0` (00_scope.md R9, 10_state.md R11). -/
def writeX (s : State) (i : Reg) (v : XWord) : State :=
  if i = 0 then s else setX s (s.x.set i (truncX s.params.xlen v))

/-- `if f then OV <- 1`: the flag is set or keeps its value, and is never cleared (10_state.md R16, 40 R52). -/
def setOvIf (s : State) (f : Bool) : State :=
  if f then setOv s true else s

/-- `pc` as an `XLEN`-bit value (10_state.md R13). -/
def readPc (s : State) : XWord := truncX s.params.xlen s.pc

/-- `pc <- to_bits_XLEN(uint(pc) + 4)` (10_state.md R14). -/
def advancePc (s : State) : State := setPc s (truncX s.params.xlen (readPc s + 4))

/-- Record a refusal or a fault (10_state.md R22; log 13). -/
def recordMark (s : State) (m : Mark) : State := setMark s (some m)

/-! ### The instruction memory -/

/-- The byte at an address, if the memory has one (20_memory.md R24; log 11). -/
def readByte : Memory → Nat → Option Byte
  | [], _ => none
  | (b, v) :: m, a => if a = b then some v else readByte m a

/-- The memory with a byte put at an address, in canonical form. Only loading a program uses it: no step writes
memory (10_state.md R20, 20_memory.md R24). -/
def writeByte : Memory → Nat → Byte → Memory
  | [], a, v => [(a, v)]
  | (b, u) :: m, a, v =>
    if a < b then (a, v) :: (b, u) :: m
    else if a = b then (a, v) :: m
    else (b, u) :: writeByte m a v

/-- The word at an address, least significant byte lowest (20_memory.md R25). -/
def readWord (m : Memory) (a : Nat) : Option Word32 := do
  let b0 ← readByte m a
  let b1 ← readByte m (a + 1)
  let b2 ← readByte m (a + 2)
  let b3 ← readByte m (a + 3)
  pure (wordOfBytes b0 b1 b2 b3)

/-- The memory with a word put at an address, least significant byte lowest (20_memory.md R25). -/
def writeWord (m : Memory) (a : Nat) (w : Word32) : Memory :=
  writeByte (writeByte (writeByte (writeByte m a (byteOfWord w 0)) (a + 1) (byteOfWord w 1)) (a + 2) (byteOfWord w 2))
    (a + 3) (byteOfWord w 3)

/-- The memory with words put one after another from an address on (20_memory.md R24). -/
def writeWords : Memory → Nat → List Word32 → Memory
  | m, _, [] => m
  | m, a, w :: ws => writeWords (writeWord m a w) (a + 4) ws

/-! ### Program, launch and fetch -/

/-- `uint(ENTRY)` (00_scope.md R5). -/
def entryAddr (s : State) : Nat := (truncX s.params.xlen s.params.entry).toNat

/-- `uint(ENTRY) + 4*len(PROGRAM)`: the address just after the program's text (70_reset_and_hazards.md R84). -/
def endAddr (s : State) : Nat := entryAddr s + 4 * s.params.textLen

/-- The state with `PROGRAM` the given words at the given `ENTRY`, and nothing else in the instruction memory
(20_memory.md R24, R28). -/
def loadProgram (s : State) (entry : XWord) (program : List Word32) : State :=
  setText (setParams s { s.params with entry := truncX s.params.xlen entry, textLen := program.length })
    (writeWords [] (truncX s.params.xlen entry).toNat program)

/-- The launch state (10_state.md R22, 70_reset_and_hazards.md R81): the program's words at `ENTRY`, `x[0] = 0`,
`x[1]` .. `x[31]` and `OV` as given, `pc = ENTRY`, no mark. -/
def launch (p : Params) (program : List Word32) (xInit : Vector XWord 32) (ovInit : Bool) : State :=
  loadProgram
    { params := p
      text := []
      x := Vector.ofFn fun i : Reg => if i = 0 then 0 else truncX p.xlen xInit[i]
      ov := ovInit
      pc := truncX p.xlen p.entry
      mark := none }
    p.entry program

/-- `Fetch(addr)`: `PROGRAM[k]` at `ENTRY + 4k` for `0 <= k < n`, and no answer elsewhere (20_memory.md R24). -/
def fetchWord (s : State) (addr : Nat) : Option Word32 :=
  if entryAddr s ≤ addr ∧ addr < endAddr s ∧ (addr - entryAddr s) % 4 = 0 then readWord s.text addr else none

/-- The word the next step runs, or why there is no such step: the recorded mark, parameters the model refuses
(10_state.md R14, R22), the end of the run, or no answer from `Fetch` (44_control_memory_system.md R69). -/
def nextWord (s : State) : Except Mark Word32 :=
  match s.mark with
  | some m => .error m
  | none =>
    if entryAddr s % 4 ≠ 0 then .error (.refused .entryMisaligned)
    else if 2 ^ s.params.xlen.bits < endAddr s then .error (.refused .textCrossesTop)
    else if (readPc s).toNat = endAddr s then .error (.faulted .runOver)
    else
      match fetchWord s (readPc s).toNat with
      | none => .error (.faulted .stuck)
      | some w => .ok w

/-- The instruction the next step runs, or why there is none: as `nextWord`, and a word the decoder does not know is
refused (30_encoding.md R43). -/
def nextInstr (s : State) : Except Mark Instr :=
  match nextWord s with
  | .error m => .error m
  | .ok w =>
    match decode s.params w with
    | .ok i => .ok i
    | .error _ => .error (.refused (.unknownWord w))

/-- The outcome of a step that stops with a mark. -/
def stopWith : Mark → Host.Outcome State Fault Refusal
  | .refused r => .refused r
  | .faulted f => .fault f

/-! ### Placing one instruction -/

/-- The state with `PROGRAM` the one given word, at the `pc` it has (cut to a multiple of 4 of the address space),
entered there with no mark, at the width the word is an instruction of (log 5, log 18). -/
def placeInstr (s : State) (nbits w : Nat) : State :=
  let word := tableWord nbits w
  let xl := widthFor s.params word
  let at_ := truncX xl (s.pc &&& ~~~3)
  loadProgram (setMark (setPc (setParams s { s.params with xlen := xl }) at_) none) at_ [word]

end Sys2Proof.Machine
end

