-- ==== Sys2Proof/Machine/Operands.lean ====
section
/-! DEFINITION. The elements of a register (00_scope.md R8) and the map over elements (40_lane_arithmetic.md R47). -/

namespace Sys2Proof.Machine

/-- `R.W[x] = R[32x+31 : 32x]` (00_scope.md R8; log 15). -/
def elem (v : XWord) (x : Nat) : Elem := v.extractLsb' (32 * x) 32

/-- The register value whose element `x` is `f x`: `{f 1, f 0}` on RV64 and `f 0` on RV32 (40_lane_arithmetic.md R47). -/
def joinElems (xl : Xlen) (f : Nat → Elem) : XWord :=
  match xl with
  | .rv32 => (f 0).setWidth 64
  | .rv64 => f 1 ++ f 0

/-- The logical or over all elements (40_lane_arithmetic.md R52). -/
def anyElem (xl : Xlen) (f : Nat → Bool) : Bool :=
  match xl with
  | .rv32 => f 0
  | .rv64 => f 0 || f 1

/-- The map over elements of a function of two sources, with the or of its flags (40_lane_arithmetic.md R47, R52). -/
def laneMap2 (xl : Xlen) (f : Elem → Elem → Elem × Bool) (a b : XWord) : XWord × Bool :=
  (joinElems xl fun x => (f (elem a x) (elem b x)).1, anyElem xl fun x => (f (elem a x) (elem b x)).2)

/-- The map over elements of a function of the accumulator and two sources, with the or of its flags
(40_lane_arithmetic.md R47, R52). -/
def laneMap3 (xl : Xlen) (f : Elem → Elem → Elem → Elem × Bool) (d a b : XWord) : XWord × Bool :=
  (joinElems xl fun x => (f (elem d x) (elem a x) (elem b x)).1,
   anyElem xl fun x => (f (elem d x) (elem a x) (elem b x)).2)

/-- The map over elements of a function of two sources that has no flag (40_lane_arithmetic.md R47). -/
def laneValues2 (xl : Xlen) (f : Elem → Elem → Elem) (a b : XWord) : XWord :=
  joinElems xl fun x => f (elem a x) (elem b x)

/-- The end of an instruction that can set the flag: write all of `x[rd]` once, set `OV` if the flag is 1, advance
`pc` (40_lane_arithmetic.md R52, R53, R55; 60_exceptions.md R76: one indivisible step). With `rd = x0` the result is
discarded and the flag kept (log 14). -/
def retire (s : State) (rd : Reg) (r : XWord × Bool) : State :=
  advancePc (setOvIf (writeX s rd r.1) r.2)

/-- The end of an instruction that does not touch `OV`: write all of `x[rd]` once, advance `pc` (43_smmul.md R62). -/
def retireNoFlag (s : State) (rd : Reg) (v : XWord) : State :=
  advancePc (writeX s rd v)

end Sys2Proof.Machine
end

