-- ==== Sys2Proof/Machine/Flags.lean ====
section
/-! DEFINITION. Saturation and the flag it gives (40_lane_arithmetic.md R51). Setting `OV` itself is `setOvIf` of
`Sys2Proof/Machine/Ops.lean`; the or over elements is `anyElem` of `Sys2Proof/Machine/Operands.lean`. -/

namespace Sys2Proof.Machine

/-- `SAT32(r)`: the exact integer `r` saturated to 32 signed bits, and whether it was outside (40_lane_arithmetic.md R51). -/
def sat32 (r : Int) : Elem × Bool :=
  if r > 2 ^ 31 - 1 then (BitVec.ofInt 32 (2 ^ 31 - 1), true)
  else if r < -2 ^ 31 then (BitVec.ofInt 32 (-2 ^ 31), true)
  else (BitVec.ofInt 32 r, false)

/-- The operand test of `KWMMUL`: both multiplicands are `0x80000000` (42_kwmmul.md R60). -/
def bothMin (a b : Elem) : Bool := a == 0x80000000 && b == 0x80000000

end Sys2Proof.Machine
end

