-- ==== Sys2Proof/Machine/Lanes.lean ====
section
/-! DEFINITION. The per-element arithmetic of 40_lane_arithmetic.md: the product and its most significant word, plain
and rounded. -/

namespace Sys2Proof.Machine

/-- `MUL64(a, b)`: the signed 64-bit product, which is exact (40_lane_arithmetic.md R46). -/
def mul64 (a b : Elem) : BitVec 64 := BitVec.ofInt 64 (a.toInt * b.toInt)

/-- `HI(a, b) = MUL64(a, b)[63:32]` (40_lane_arithmetic.md R48). -/
def hi (a b : Elem) : Elem := (mul64 a b).extractLsb' 32 32

/-- `Round[32:0] = Mres[63:31] + 1` in 33 bits, the carry out dropped (40_lane_arithmetic.md R49). -/
def round33 (m : BitVec 64) : BitVec 33 := m.extractLsb' 31 33 + 1

/-- `HIU(a, b) = Round[32:1]` (40_lane_arithmetic.md R49). -/
def hiu (a b : Elem) : Elem := (round33 (mul64 a b)).extractLsb' 1 32

/-- `Round[33:0] = Mres[63:30] + 1` in 34 bits, the carry out dropped (42_kwmmul.md R61). -/
def round34 (m : BitVec 64) : BitVec 34 := m.extractLsb' 30 34 + 1

end Sys2Proof.Machine
end

