-- ==== Sys2Proof/Machine/MulAdd.lean ====
section
/-! DEFINITION. KMMAC, KMMAC.u, KMMSB, KMMSB.u (41_kmmac_kmmsb.md R56 to R59). -/

namespace Sys2Proof.Machine

/-- One element of `KMMAC`: `SAT32(sint(d) + sint(HI(a, b)))` (41_kmmac_kmmsb.md R56). -/
def kmmacElem (d a b : Elem) : Elem × Bool := sat32 (d.toInt + (hi a b).toInt)

/-- One element of `KMMAC.u`: `SAT32(sint(d) + sint(HIU(a, b)))` (41_kmmac_kmmsb.md R57). -/
def kmmacUElem (d a b : Elem) : Elem × Bool := sat32 (d.toInt + (hiu a b).toInt)

/-- One element of `KMMSB`: `SAT32(sint(d) - sint(HI(a, b)))` (41_kmmac_kmmsb.md R58). -/
def kmmsbElem (d a b : Elem) : Elem × Bool := sat32 (d.toInt - (hi a b).toInt)

/-- One element of `KMMSB.u`: `SAT32(sint(d) - sint(HIU(a, b)))` (41_kmmac_kmmsb.md R59). -/
def kmmsbUElem (d a b : Elem) : Elem × Bool := sat32 (d.toInt - (hiu a b).toInt)

/-- `KMMAC rd, rs1, rs2` (41_kmmac_kmmsb.md R56). -/
def execKmmac (rd rs1 rs2 : Reg) (s : State) : Host.Outcome State Fault Refusal :=
  .next (retire s rd (laneMap3 s.params.xlen kmmacElem (readX s rd) (readX s rs1) (readX s rs2)))

/-- `KMMAC.u rd, rs1, rs2` (41_kmmac_kmmsb.md R57). -/
def execKmmacU (rd rs1 rs2 : Reg) (s : State) : Host.Outcome State Fault Refusal :=
  .next (retire s rd (laneMap3 s.params.xlen kmmacUElem (readX s rd) (readX s rs1) (readX s rs2)))

/-- `KMMSB rd, rs1, rs2` (41_kmmac_kmmsb.md R58). -/
def execKmmsb (rd rs1 rs2 : Reg) (s : State) : Host.Outcome State Fault Refusal :=
  .next (retire s rd (laneMap3 s.params.xlen kmmsbElem (readX s rd) (readX s rs1) (readX s rs2)))

/-- `KMMSB.u rd, rs1, rs2` (41_kmmac_kmmsb.md R59). -/
def execKmmsbU (rd rs1 rs2 : Reg) (s : State) : Host.Outcome State Fault Refusal :=
  .next (retire s rd (laneMap3 s.params.xlen kmmsbUElem (readX s rd) (readX s rs1) (readX s rs2)))

end Sys2Proof.Machine
end

