-- ==== Sys2Proof/Machine/MulDouble.lean ====
section
/-! DEFINITION. KWMMUL, KWMMUL.u (42_kwmmul.md R60, R61). -/

namespace Sys2Proof.Machine

/-- One element of `KWMMUL`: `0x7FFFFFFF` with the flag for the one pair whose doubled product does not fit, else
`MUL64(a, b)[62:31]` (42_kwmmul.md R60). -/
def kwmmulElem (a b : Elem) : Elem × Bool :=
  if bothMin a b then (0x7FFFFFFF, true) else ((mul64 a b).extractLsb' 31 32, false)

/-- One element of `KWMMUL.u`: as `KWMMUL`, the rounded `Round[32:1]` in place of the slice (42_kwmmul.md R61). -/
def kwmmulUElem (a b : Elem) : Elem × Bool :=
  if bothMin a b then (0x7FFFFFFF, true) else ((round34 (mul64 a b)).extractLsb' 1 32, false)

/-- `KWMMUL rd, rs1, rs2` (42_kwmmul.md R60). -/
def execKwmmul (rd rs1 rs2 : Reg) (s : State) : Host.Outcome State Fault Refusal :=
  .next (retire s rd (laneMap2 s.params.xlen kwmmulElem (readX s rs1) (readX s rs2)))

/-- `KWMMUL.u rd, rs1, rs2` (42_kwmmul.md R61). -/
def execKwmmulU (rd rs1 rs2 : Reg) (s : State) : Host.Outcome State Fault Refusal :=
  .next (retire s rd (laneMap2 s.params.xlen kwmmulUElem (readX s rs1) (readX s rs2)))

end Sys2Proof.Machine
end

