-- ==== Sys2Proof/Machine/MulWord.lean ====
section
/-! DEFINITION. SMMUL, SMMUL.u, and the `mulh` that SMMUL is on RV32 (43_smmul.md R62 to R64). -/

namespace Sys2Proof.Machine

/-- `SMMUL rd, rs1, rs2` (43_smmul.md R62). -/
def execSmmul (rd rs1 rs2 : Reg) (s : State) : Host.Outcome State Fault Refusal :=
  .next (retireNoFlag s rd (laneValues2 s.params.xlen hi (readX s rs1) (readX s rs2)))

/-- `SMMUL.u rd, rs1, rs2` (43_smmul.md R63). -/
def execSmmulU (rd rs1 rs2 : Reg) (s : State) : Host.Outcome State Fault Refusal :=
  .next (retireNoFlag s rd (laneValues2 s.params.xlen hiu (readX s rs1) (readX s rs2)))

/-- `sint(v)` of an `XLEN`-bit value (00_scope.md R6). -/
def sintX (xl : Xlen) (v : XWord) : Int :=
  match xl with
  | .rv32 => (v.setWidth 32).toInt
  | .rv64 => v.toInt

/-- What `mulh` of the standard multiply extension writes: the upper `XLEN` bits of the `2*XLEN`-bit signed product
of two registers (43_smmul.md R64, there from general knowledge). -/
def mulhValue (xl : Xlen) (a b : XWord) : XWord :=
  truncX xl (BitVec.ofInt 64 (sintX xl a * sintX xl b / 2 ^ xl.bits))

end Sys2Proof.Machine
end

