-- ==== Sys2Proof/Machine/Dispatch.lean ====
section
/-! DEFINITION. One arm per instruction (44_control_memory_system.md R69). -/

namespace Sys2Proof.Machine

def exec (i : Instr) (s : State) : Host.Outcome State Fault Refusal :=
  match i with
  | .kmmac rd rs1 rs2 => Sys2Proof.Machine.execKmmac rd rs1 rs2 s
  | .kmmacU rd rs1 rs2 => Sys2Proof.Machine.execKmmacU rd rs1 rs2 s
  | .kmmsb rd rs1 rs2 => Sys2Proof.Machine.execKmmsb rd rs1 rs2 s
  | .kmmsbU rd rs1 rs2 => Sys2Proof.Machine.execKmmsbU rd rs1 rs2 s
  | .kwmmul rd rs1 rs2 => Sys2Proof.Machine.execKwmmul rd rs1 rs2 s
  | .kwmmulU rd rs1 rs2 => Sys2Proof.Machine.execKwmmulU rd rs1 rs2 s
  | .smmul rd rs1 rs2 => Sys2Proof.Machine.execSmmul rd rs1 rs2 s
  | .smmulU rd rs1 rs2 => Sys2Proof.Machine.execSmmulU rd rs1 rs2 s

end Sys2Proof.Machine
end

