-- ==== Sys2Proof/Machine/Step.lean ====
section
/-! DEFINITION. The one step of the one agent, the hart (44_control_memory_system.md R69). -/

namespace Sys2Proof.Machine

/-- Fetch, decode and run one instruction, or stop by name (44_control_memory_system.md R69). -/
def step (s : State) : Host.Outcome State Fault Refusal :=
  match nextInstr s with
  | .ok i => exec i s
  | .error m => stopWith m

/-- The state with the instruction `w` placed where `step` fetches its next instruction (log 5, log 18). -/
def State.withFetchWord (s : State) (nbits w : Nat) : State := placeInstr s nbits w

end Sys2Proof.Machine
end

