-- ==== Sys2Proof/Machine/Assembler.lean ====
section
/-! DEFINITION. The assembler text of the eight instructions (30_encoding.md R40 to R42; log 21). -/

namespace Sys2Proof.Machine

/-- One line of assembler text: the mnemonic, then destination, first and second source (30_encoding.md R40). -/
structure AsmLine where
  mnemonic : String
  rd : String
  rs1 : String
  rs2 : String
deriving DecidableEq, Repr

/-- The line as text, its operands separated by commas (30_encoding.md R40). -/
def asmText (l : AsmLine) : String := l.mnemonic ++ " " ++ l.rd ++ ", " ++ l.rs1 ++ ", " ++ l.rs2

/-- The names `x0` .. `x31` (10_state.md R10). -/
def xNames : List String :=
  ["x0", "x1", "x2", "x3", "x4", "x5", "x6", "x7"] ++ ["x8", "x9", "x10", "x11", "x12", "x13", "x14", "x15"] ++
  ["x16", "x17", "x18", "x19", "x20", "x21", "x22", "x23"] ++ ["x24", "x25", "x26", "x27", "x28", "x29", "x30", "x31"]

/-- The ABI names of `x0` .. `x31` in that order; `fp` is a second name of `s0` (10_state.md R10). -/
def abiNames : List String :=
  ["zero", "ra", "sp", "gp", "tp", "t0", "t1", "t2"] ++ ["s0", "s1", "a0", "a1", "a2", "a3", "a4", "a5"] ++
  ["a6", "a7", "s2", "s3", "s4", "s5", "s6", "s7"] ++ ["s8", "s9", "s10", "s11", "t3", "t4", "t5", "t6"]

/-- The name `x<i>` of a register (10_state.md R10). -/
def regName (r : Reg) : String := xNames.getD r.val ""

/-- The ABI name of a register (10_state.md R10). -/
def abiName (r : Reg) : String := abiNames.getD r.val ""

/-- The register a name stands for, if it is one of the accepted names (10_state.md R10). -/
def regOfName (t : String) : Option Reg :=
  if t = "fp" then some 8
  else (List.finRange 32).find? fun r => regName r = t ∨ abiName r = t

/-- The mnemonic as the source's Syntax lines write it (30_encoding.md R40, R41). -/
def sourceMnemonic : Instr → String
  | .kmmac .. => "KMMAC"
  | .kmmacU .. => "KMMAC.u"
  | .kmmsb .. => "KMMSB"
  | .kmmsbU .. => "KMMSB.u"
  | .kwmmul .. => "KWMMUL"
  | .kwmmulU .. => "KWMMUL.u"
  | .smmul .. => "SMMUL"
  | .smmulU .. => "SMMUL.u"

/-- The mnemonic in the GNU assembler's lower case (30_encoding.md R41). -/
def gnuMnemonic : Instr → String
  | .kmmac .. => "kmmac"
  | .kmmacU .. => "kmmac.u"
  | .kmmsb .. => "kmmsb"
  | .kmmsbU .. => "kmmsb.u"
  | .kwmmul .. => "kwmmul"
  | .kwmmulU .. => "kwmmul.u"
  | .smmul .. => "smmul"
  | .smmulU .. => "smmul.u"

/-- An instruction as a line in the source's spelling (30_encoding.md R40). -/
def sourceLine (i : Instr) : AsmLine := ⟨sourceMnemonic i, regName i.rd, regName i.rs1, regName i.rs2⟩

/-- An instruction as a line in the GNU assembler's spelling, with ABI register names (30_encoding.md R41). -/
def gnuLine (i : Instr) : AsmLine := ⟨gnuMnemonic i, abiName i.rd, abiName i.rs1, abiName i.rs2⟩

/-- Each instruction with given operands, the candidates a mnemonic is looked up among. -/
def instrsOn (rd rs1 rs2 : Reg) : List Instr :=
  [.kmmac rd rs1 rs2, .kmmacU rd rs1 rs2, .kmmsb rd rs1 rs2, .kmmsbU rd rs1 rs2,
   .kwmmul rd rs1 rs2, .kwmmulU rd rs1 rs2, .smmul rd rs1 rs2, .smmulU rd rs1 rs2]

/-- The instruction a mnemonic names, in either spelling; on RV32 `mulh` is `smmul` (30_encoding.md R41, R42). -/
def instrOfMnemonic (xl : Xlen) (m : String) (rd rs1 rs2 : Reg) : Option Instr :=
  if m = "mulh" ∧ xl = .rv32 then some (.smmul rd rs1 rs2)
  else (instrsOn rd rs1 rs2).find? fun i => sourceMnemonic i = m ∨ gnuMnemonic i = m

/-- The instruction a line of assembler text stands for (30_encoding.md R40 to R42). -/
def assemble (xl : Xlen) (l : AsmLine) : Option Instr := do
  let rd ← regOfName l.rd
  let rs1 ← regOfName l.rs1
  let rs2 ← regOfName l.rs2
  instrOfMnemonic xl l.mnemonic rd rs1 rs2

/-- The word a line of assembler text is assembled to (30_encoding.md R37, R38). -/
def assembleWord (p : Params) (l : AsmLine) : Option Word32 := (assemble p.xlen l).map (encode p)

end Sys2Proof.Machine
end

