-- ==== Sys2Proof/Machine/Intrinsics.lean ====
section
/-! DEFINITION. The eight C intrinsics as functions on values (30_encoding.md R45; log 20): the arguments `t`, `a`, `b`
are the registers `Rd`, `Rs1`, `Rs2` before the instruction; the first component of the answer is `Rd` after it, the
second says whether the call sets `OV`. -/

namespace Sys2Proof.Machine

/-- `long __RV_KMMAC(long t, long a, long b)` (30_encoding.md R45). -/
def rvKmmac (xl : Xlen) (t a b : XWord) : XWord × Bool := laneMap3 xl kmmacElem t a b

/-- `long __RV_KMMAC_U(long t, long a, long b)` (30_encoding.md R45). -/
def rvKmmacU (xl : Xlen) (t a b : XWord) : XWord × Bool := laneMap3 xl kmmacUElem t a b

/-- `long __RV_KMMSB(long t, long a, long b)` (30_encoding.md R45). -/
def rvKmmsb (xl : Xlen) (t a b : XWord) : XWord × Bool := laneMap3 xl kmmsbElem t a b

/-- `long __RV_KMMSB_U(long t, long a, long b)` (30_encoding.md R45). -/
def rvKmmsbU (xl : Xlen) (t a b : XWord) : XWord × Bool := laneMap3 xl kmmsbUElem t a b

/-- `long __RV_KWMMUL(long a, long b)` (30_encoding.md R45). -/
def rvKwmmul (xl : Xlen) (a b : XWord) : XWord × Bool := laneMap2 xl kwmmulElem a b

/-- `long __RV_KWMMUL_U(long a, long b)` (30_encoding.md R45). -/
def rvKwmmulU (xl : Xlen) (a b : XWord) : XWord × Bool := laneMap2 xl kwmmulUElem a b

/-- `long __RV_SMMUL(long a, long b)`, which never sets `OV` (30_encoding.md R45, 43_smmul.md R62). -/
def rvSmmul (xl : Xlen) (a b : XWord) : XWord × Bool := (laneValues2 xl hi a b, false)

/-- `long __RV_SMMUL_U(long a, long b)`, which never sets `OV` (30_encoding.md R45, 43_smmul.md R63). -/
def rvSmmulU (xl : Xlen) (a b : XWord) : XWord × Bool := (laneValues2 xl hiu a b, false)

/-- The intrinsic that issues an instruction, as a function of `Rd`, `Rs1`, `Rs2` before it; the two-argument ones
ignore the first (30_encoding.md R45, its table). -/
def intrinsicOf (i : Instr) (xl : Xlen) (t a b : XWord) : XWord × Bool :=
  match i with
  | .kmmac .. => rvKmmac xl t a b
  | .kmmacU .. => rvKmmacU xl t a b
  | .kmmsb .. => rvKmmsb xl t a b
  | .kmmsbU .. => rvKmmsbU xl t a b
  | .kwmmul .. => rvKwmmul xl a b
  | .kwmmulU .. => rvKwmmulU xl a b
  | .smmul .. => rvSmmul xl a b
  | .smmulU .. => rvSmmulU xl a b

end Sys2Proof.Machine
end

