-- ==== Sys2Proof/Machine/Pseudocode.lean ====
section
/-! DEFINITION. The source's own Operations blocks, as 41_kmmac_kmmsb.md, 42_kwmmul.md and 43_smmul.md transcribe
them: statement by statement, one element after another, each element's writes seen by the next. The meanings that
`exec` calls are written from the rules instead; that the two agree is a statement of its own (40_lane_arithmetic.md
R53). Nothing here calls the helpers of `Sys2Proof/Machine/Lanes.lean`. -/

namespace Sys2Proof.Machine

/-- A register value with element `x` (0 or 1) replaced: the assignment `Rd.W[x] = e` on the value. -/
def setElem (v : XWord) (x : Nat) (e : Elem) : XWord :=
  if x = 0 then v.extractLsb' 32 32 ++ e else e ++ v.extractLsb' 0 32

/-- The statement `Rd.W[x] = e`. -/
def assignElem (s : State) (rd : Reg) (x : Nat) (e : Elem) : State :=
  writeX s rd (setElem (readX s rd) x e)

/-- `Mres[x][63:0] = Rs1.W[x] * Rs2.W[x]`. -/
def pcMres (s : State) (rs1 rs2 : Reg) (x : Nat) : BitVec 64 :=
  (elem (readX s rs1) x).signExtend 64 * (elem (readX s rs2) x).signExtend 64

/-- `Mres[x][63:32]`, or in the `.u` form `Round[x][32:1]` with `Round[x][32:0] = Mres[x][63:31] + 1`. -/
def pcHigh (u : Bool) (m : BitVec 64) : Elem :=
  if u then (m.extractLsb' 31 33 + 1).extractLsb' 1 32 else m.extractLsb' 32 32

/-- The `if (res[x] > (2^31)-1) ... else if (res[x] < -2^31) ...; Rd.W[x] = res[x];` of the multiply and add blocks,
with `res` in 34 bits, which hold every value it can have. -/
def pcSaturate (s : State) (rd : Reg) (x : Nat) (res : BitVec 34) : State :=
  if (2147483647 : BitVec 34).slt res then assignElem (setOv s true) rd x 0x7FFFFFFF
  else if res.slt (-2147483648 : BitVec 34) then assignElem (setOv s true) rd x 0x80000000
  else assignElem s rd x (res.setWidth 32)

/-- Element `x` of the Operations of `KMMAC`, `KMMAC.u` (41_kmmac_kmmsb.md). -/
def pcKmmac (u : Bool) (rd rs1 rs2 : Reg) (s : State) (x : Nat) : State :=
  pcSaturate s rd x ((elem (readX s rd) x).signExtend 34 + (pcHigh u (pcMres s rs1 rs2 x)).signExtend 34)

/-- Element `x` of the Operations of `KMMSB`, `KMMSB.u` (41_kmmac_kmmsb.md). -/
def pcKmmsb (u : Bool) (rd rs1 rs2 : Reg) (s : State) (x : Nat) : State :=
  pcSaturate s rd x ((elem (readX s rd) x).signExtend 34 - (pcHigh u (pcMres s rs1 rs2 x)).signExtend 34)

/-- Element `x` of the Operations of `KWMMUL`, `KWMMUL.u` (42_kwmmul.md). -/
def pcKwmmul (u : Bool) (rd rs1 rs2 : Reg) (s : State) (x : Nat) : State :=
  if 0x80000000 ≠ elem (readX s rs1) x ∨ 0x80000000 ≠ elem (readX s rs2) x then
    let m := pcMres s rs1 rs2 x
    if u then assignElem s rd x ((m.extractLsb' 30 34 + 1).extractLsb' 1 32)
    else assignElem s rd x (m.extractLsb' 31 32)
  else setOv (assignElem s rd x 0x7FFFFFFF) true

/-- Element `x` of the Operations of `SMMUL`, `SMMUL.u` (43_smmul.md). -/
def pcSmmul (u : Bool) (rd rs1 rs2 : Reg) (s : State) (x : Nat) : State :=
  assignElem s rd x (pcHigh u (pcMres s rs1 rs2 x))

/-- Element `x` of the Operations of an instruction. -/
def pcElement : Instr → State → Nat → State
  | .kmmac rd rs1 rs2 => pcKmmac false rd rs1 rs2
  | .kmmacU rd rs1 rs2 => pcKmmac true rd rs1 rs2
  | .kmmsb rd rs1 rs2 => pcKmmsb false rd rs1 rs2
  | .kmmsbU rd rs1 rs2 => pcKmmsb true rd rs1 rs2
  | .kwmmul rd rs1 rs2 => pcKwmmul false rd rs1 rs2
  | .kwmmulU rd rs1 rs2 => pcKwmmul true rd rs1 rs2
  | .smmul rd rs1 rs2 => pcSmmul false rd rs1 rs2
  | .smmulU rd rs1 rs2 => pcSmmul true rd rs1 rs2

/-- The Operations of an instruction over the elements in a given order, then the advance of `pc`. The source's
orders are `[0]` on RV32 and `[1, 0]` on RV64. -/
def pcOperations (i : Instr) (order : List Nat) (s : State) : State :=
  advancePc (order.foldl (pcElement i) s)

end Sys2Proof.Machine
end

