-- ==== Sys2Proof/WellFormed.lean ====
section
/-! DEFINITION. The checks on what is given to the machine: the table ENC and the launch parameters. An instruction
itself has none to fail: "Every value 0 .. 31 of every field is legal, in every combination" (30_encoding.md R35),
and `Reg` holds no other value. -/

namespace Sys2Proof

/-- The eight match values of a table, with that of the `mulh` word: the values the decoder compares with. -/
def Enc.matchList (e : Enc) : List Word32 :=
  [e.kmmac, e.kmmacU, e.kmmsb, e.kmmsbU, e.kwmmul, e.kwmmulU, e.smmul, e.smmulU, mulhMatch]

/-- No match value has a bit in an operand field, which the mask leaves free (30_encoding.md R37, R43). -/
def Enc.inMask (e : Enc) : Bool := e.matchList.all fun m => m &&& encMask == m

/-- The match values are pairwise different, so at most one row selects a word (30_encoding.md R37). -/
def Enc.distinct (e : Enc) : Bool := decide (e.matchList.Pairwise (· ≠ ·))

/-- A table that names each instruction's words without ambiguity (30_encoding.md R37). -/
def Enc.wellFormed (e : Enc) : Bool := e.inMask && e.distinct

/-- `ENTRY` is a multiple of 4 (10_state.md R22). -/
def Params.entryAligned (p : Params) : Bool := p.entry.toNat % 4 == 0

/-- `ENTRY` is an `XLEN`-bit address (00_scope.md R5). -/
def Params.entryInSpace (p : Params) : Bool := decide (p.entry.toNat < 2 ^ p.xlen.bits)

/-- The program's text does not cross the top of the address space (10_state.md R14). -/
def Params.textFits (p : Params) : Bool := decide (p.entry.toNat + 4 * p.textLen ≤ 2 ^ p.xlen.bits)

/-- The parameters are in the domain of 00_scope.md R5 and the program is not refused by 10_state.md R14. -/
def Params.wellFormed (p : Params) : Bool :=
  p.enc.wellFormed && p.entryAligned && p.entryInSpace && p.textFits

end Sys2Proof
end

