-- ==== Sys2Proof/Safety.lean ====
section
/-! DEFINITION. The terms claims are made in: the integers of the spec, well-formed states, programs that are in the
instruction memory and decode, final states and what may be observed of them, and runs that record where they stop. -/

namespace Sys2Proof.Machine

/-! ### The integers of the spec -/

/-- `P = sint(a) * sint(b)` (40_lane_arithmetic.md, its opening). -/
def product (a b : Elem) : Int := a.toInt * b.toInt

/-- `sint(R.W[x])` of a register as read (00_scope.md R6, R8). -/
def elemInt (s : State) (i : Reg) (x : Nat) : Int := (elem (readX s i) x).toInt

/-- The product of the elements `x` of two registers. -/
def elemProduct (s : State) (rs1 rs2 : Reg) (x : Nat) : Int := product (elem (readX s rs1) x) (elem (readX s rs2) x)

/-- The integer is beyond the Q31 range `-2^31 <= Q31 <= 2^31-1` (00_scope.md glossary). -/
abbrev outsideQ31 (r : Int) : Prop := r < -2147483648 ∨ 2147483647 < r

/-- The integer brought into the Q31 range (00_scope.md glossary, "saturate"). -/
def clampQ31 (r : Int) : Int := max (-2147483648) (min 2147483647 r)

/-! ### Well-formed states -/

/-- Each register holds an `XLEN`-bit value. -/
abbrev State.RegsInWidth (s : State) : Prop := ∀ i : Reg, s.x[i].toNat < 2 ^ s.params.xlen.bits

/-- Slot 0 of the register file holds the zero that `x[0]` always reads as (10_state.md R11, R22). -/
abbrev State.ZeroSlot (s : State) : Prop := s.x[(0 : Reg)] = 0

/-- `pc` is an `XLEN`-bit multiple of 4 (10_state.md R13, R14). -/
abbrev State.PcAligned (s : State) : Prop := s.pc.toNat < 2 ^ s.params.xlen.bits ∧ s.pc.toNat % 4 = 0

/-- The invariant every step keeps: parameters in their domain, the instruction memory in canonical form, registers
and `pc` in their width, `x[0]` zero, `pc` aligned, no refusal recorded. -/
abbrev State.Inv (s : State) : Prop :=
  s.params.wellFormed = true ∧ Memory.wf s.text = true ∧ s.RegsInWidth ∧ s.ZeroSlot ∧ s.PcAligned ∧ s.mark = none

/-! ### Encodings -/

/-- The instruction that the bits `A`, `U`, `B` of `funct7 = 0 1 A U 0 0 B` select (30_encoding.md R36). -/
def selectedBy (A U B : Bool) (rd rs1 rs2 : Reg) : Instr :=
  match A, B, U with
  | false, false, false => .smmul rd rs1 rs2
  | false, false, true => .smmulU rd rs1 rs2
  | false, true, false => .kmmsb rd rs1 rs2
  | false, true, true => .kmmsbU rd rs1 rs2
  | true, false, false => .kmmac rd rs1 rs2
  | true, false, true => .kmmacU rd rs1 rs2
  | true, true, false => .kwmmul rd rs1 rs2
  | true, true, true => .kwmmulU rd rs1 rs2

/-- The word has the constant fields of the eight: `opcode = 1110111`, `funct3 = 001`, and bits 31, 30, 27, 26 of
`funct7` equal to 0, 1, 0, 0 (30_encoding.md R34, R36). -/
abbrev hasGroupFields (w : Word32) : Prop :=
  w.extractLsb' 0 7 = 0b1110111 ∧ w.extractLsb' 12 3 = 0b001 ∧ w.extractLsb' 30 2 = 0b01 ∧ w.extractLsb' 26 2 = 0b00

/-! ### Results and frames -/

/-- `x[rd]` after an instruction: `f e` in each element `e`, or zero if `rd` is `x0` (10_state.md R11, R12). -/
abbrev rdHolds (s t : State) (rd : Reg) (f : Nat → Int) : Prop :=
  if rd = 0 then readX t rd = 0 else ∀ e < s.params.xlen.nelem, elemInt t rd e = f e

/-- The flag after an instruction: set if it was set or if `p` holds of some element (40_lane_arithmetic.md R52). -/
abbrev ovSetIf (s t : State) (p : Nat → Prop) : Prop :=
  t.ov = true ↔ s.ov = true ∨ ∃ e < s.params.xlen.nelem, p e

/-- `pc` advanced by 4 modulo `2^XLEN` (10_state.md R14). -/
abbrev pcAdvanced (s t : State) : Prop :=
  (readPc t).toNat = ((readPc s).toNat + 4) % 2 ^ s.params.xlen.bits

/-- Nothing but the register `rd`, `OV` and `pc` differs: the other registers, the parameters, the mark and every
byte of the instruction memory are the same (10_state.md R12, 20_memory.md R23, R24). -/
abbrev sameButRdOvPc (s t : State) (rd : Reg) : Prop :=
  (∀ j, j ≠ rd → readX t j = readX s j) ∧ t.params = s.params ∧ t.mark = s.mark ∧
    ∀ a, readByte t.text a = readByte s.text a

/-- Two states that no claim can tell apart: the same parameters, instruction memory and mark, the same registers and
`pc` as read, the same `OV`. -/
abbrev sameReadings (s t : State) : Prop :=
  s.params = t.params ∧ s.text = t.text ∧ s.mark = t.mark ∧ (∀ i, readX s i = readX t i) ∧ s.ov = t.ov ∧ readPc s = readPc t

/-- A register value with its two elements exchanged. -/
def swapHalves (v : XWord) : XWord := elem v 0 ++ elem v 1

/-! ### Programs -/

/-- The state's parameters are accepted and nothing is recorded that stops the hart (10_state.md R14, R22). -/
abbrev State.Accepted (s : State) : Prop :=
  s.mark = none ∧ entryAddr s % 4 = 0 ∧ endAddr s ≤ 2 ^ s.params.xlen.bits

/-- Word `k` of the program, as the instruction memory holds it (20_memory.md R24). -/
def programWord (s : State) (k : Nat) : Option Word32 := readWord s.text (entryAddr s + 4 * k)

/-- Every word of the program stands in the instruction memory. -/
abbrev State.TextPresent (s : State) : Prop := ∀ k < s.params.textLen, (programWord s k).isSome = true

/-- Word `k` of the program stands in the instruction memory and is one of the eight instructions. -/
def decodableAt (s : State) (k : Nat) : Bool :=
  match programWord s k with
  | some w =>
    match decode s.params w with
    | .ok _ => true
    | .error _ => false
  | none => false

/-- Every word of the program stands in the instruction memory and is one of the eight instructions. -/
abbrev State.TextDecodes (s : State) : Prop := ∀ k < s.params.textLen, decodableAt s k = true

/-- `pc` is at word `k` of the program, or for `k = len(PROGRAM)` just after its last word. -/
abbrev State.AtWord (s : State) (k : Nat) : Prop := k ≤ s.params.textLen ∧ (readPc s).toNat = entryAddr s + 4 * k

/-- A state from which the hart can run on: parameters the model accepts, with the end of the text below the top of
the address space so that the advance of `pc` does not wrap (log 12), the text in memory, `pc` at one of its words or
at its end, no refusal recorded. -/
abbrev State.OnText (s : State) : Prop :=
  entryAddr s % 4 = 0 ∧ endAddr s < 2 ^ s.params.xlen.bits ∧ s.TextPresent ∧ (∃ k, s.AtWord k) ∧ s.mark = none

/-! ### Runs -/

/-- The run is over: `uint(pc) == uint(ENTRY) + 4*len(PROGRAM)` (70_reset_and_hazards.md R84). -/
abbrev State.Final (s : State) : Prop := (readPc s).toNat = endAddr s

/-- What a claim may observe of a final state: `x[1]` .. `x[31]`, `OV` and `pc` (70_reset_and_hazards.md R84). -/
structure Observation where
  regs : List XWord
  ov : Bool
  pc : XWord
deriving DecidableEq, Repr

/-- The observation of a state (70_reset_and_hazards.md R84). -/
def observe (s : State) : Observation where
  regs := (List.range 31).map fun k => readX s (Fin.ofNat 32 (k + 1))
  ov := s.ov
  pc := readPc s

/-- One move of a run: the next state, the same state once the run is over, and otherwise the same state with the
reason it stopped recorded (10_state.md R22, 44_control_memory_system.md R69; log 13). -/
def runOne (s : State) : State :=
  match step s with
  | .next t => t
  | .refused r => recordMark s (.refused r)
  | .fault .runOver => s
  | .fault .stuck => recordMark s (.faulted .stuck)

/-- A run of `n` moves. -/
def run : Nat → State → State
  | 0, s => s
  | n + 1, s => run n (runOne s)

end Sys2Proof.Machine
end

