-- ==== Sys2Proof/Certificates/Slice0/Obligations.lean ====
section
/-! DEFINITION. The statements for the provers. Each docstring names the rule or the sections of spec/ it formalises. -/

open Sys2Proof Sys2Proof.Machine

/-! ### Launch, reset and the step -/

/-- 70_reset_and_hazards.md R81: the launch state. -/
def Obligations.LaunchHasTheGivenValues : Prop :=
  ∀ (p : Params) (program : List Word32) (xInit : Vector XWord 32) (ovInit : Bool),
    readX (launch p program xInit ovInit) 0 = 0 ∧
    (∀ i : Reg, i ≠ 0 → readX (launch p program xInit ovInit) i = truncX p.xlen xInit[i]) ∧
    (launch p program xInit ovInit).ov = ovInit ∧
    (readPc (launch p program xInit ovInit)).toNat = entryAddr (launch p program xInit ovInit) ∧
    entryAddr (launch p program xInit ovInit) = (truncX p.xlen p.entry).toNat ∧
    (launch p program xInit ovInit).mark = none

/-- 10_state.md R22, 70_reset_and_hazards.md R82: a launch at parameters in their domain meets the invariant. -/
def Obligations.LaunchMeetsInv : Prop :=
  ∀ (p : Params) (program : List Word32) (xInit : Vector XWord 32) (ovInit : Bool),
    ({ p with textLen := program.length } : Params).wellFormed = true →
      (launch p program xInit ovInit).Inv

/-- The reset state is the launch state of the empty program with zero registers and flag (the model's values: log 1,
3, 4, 5, 6, 7), meets the invariant and stands on its (empty) text. -/
def Obligations.ResetMeetsInv : Prop :=
  State.reset = launch resetParams [] (Vector.replicate 32 0) false ∧ State.reset.Inv ∧ State.reset.OnText

/-- 10_state.md R11: `x0` reads as zero and a write to it is discarded; every other register reads as the `XLEN`-bit
value last written to it, and a write changes no other register. -/
def Obligations.RegisterReadsWhatWasWritten : Prop :=
  ∀ (s : State) (i j : Reg) (v : XWord),
    readX (writeX s i v) j = if j = 0 then 0 else if j = i then truncX s.params.xlen v else readX s j

/-- 20_memory.md R24: what `Fetch` answers after a program is launched at an address where it fits. -/
def Obligations.FetchAnswersTheProgram : Prop :=
  ∀ (p : Params) (program : List Word32) (xInit : Vector XWord 32) (ovInit : Bool),
    (∀ k < program.length,
      fetchWord (launch p program xInit ovInit) (entryAddr (launch p program xInit ovInit) + 4 * k) = program[k]?) ∧
    ∀ a, (∀ k < program.length, a ≠ entryAddr (launch p program xInit ovInit) + 4 * k) →
      fetchWord (launch p program xInit ovInit) a = none

/-- 44_control_memory_system.md R69: a step runs the decoded instruction and adds nothing around it. -/
def Obligations.StepRunsDecodedInstruction : Prop :=
  ∀ (s : State) (w : Word32) (i : Instr), s.Accepted → fetchWord s (readPc s).toNat = some w →
    decode s.params w = .ok i → step s = exec i s

/-- 30_encoding.md R43: a fetched word that is none of the eight is refused, neither trapped nor a no-op. -/
def Obligations.UnknownWordIsRefused : Prop :=
  ∀ (s : State) (w : Word32), s.Accepted → fetchWord s (readPc s).toNat = some w →
    (∀ i, decode s.params w ≠ .ok i) → step s = .refused (.unknownWord w)

/-- 44_control_memory_system.md R69, 70_reset_and_hazards.md R84: at the end of the text there is no step. That the
outcome is the fault `runOver` is the model's choice (log 10). -/
def Obligations.StepAtEndOfTextIsOver : Prop :=
  ∀ s : State, s.Accepted → s.Final → step s = .fault .runOver

/-- 20_memory.md R24: where `Fetch` has no answer the hart is stuck. -/
def Obligations.StepWithoutFetchAnswerIsStuck : Prop :=
  ∀ s : State, s.Accepted → ¬ s.Final → fetchWord s (readPc s).toNat = none → step s = .fault .stuck

/-- 10_state.md R14, R22 and log 12: the parameters the model refuses. -/
def Obligations.UnacceptedParametersAreRefused : Prop :=
  ∀ s : State, s.mark = none →
    (entryAddr s % 4 ≠ 0 → step s = .refused .entryMisaligned) ∧
    (entryAddr s % 4 = 0 → 2 ^ s.params.xlen.bits < endAddr s → step s = .refused .textCrossesTop)

/-- 44_control_memory_system.md R69 ("from a state with no refusal recorded"), log 13: a recorded mark stops every
later move, and a run stays where it stopped. -/
def Obligations.RecordedStopIsKept : Prop :=
  ∀ (s : State) (n : Nat) (m : Mark), runOne s = recordMark s m →
    (∀ t, step (runOne s) ≠ .next t) ∧ run n (runOne s) = runOne s

/-- 44_control_memory_system.md R69: what a step that answers a next state has done. -/
def Obligations.NextStateComesFromOneInstruction : Prop :=
  ∀ s t : State, step s = .next t →
    s.Accepted ∧ ¬ s.Final ∧ ∃ w i, fetchWord s (readPc s).toNat = some w ∧ decode s.params w = .ok i ∧ exec i s = .next t

/-- Log 5, log 18: the host's placing of one word makes the very next step run it, from every state. -/
def Obligations.PlacedWordRunsNext : Prop :=
  ∀ (s : State) (nbits w : Nat) (i : Instr),
    decode { s.params with xlen := widthFor s.params (tableWord nbits w) } (tableWord nbits w) = .ok i →
      step (s.withFetchWord nbits w) = exec i (s.withFetchWord nbits w) ∧
      (s.withFetchWord nbits w).x = s.x ∧ (s.withFetchWord nbits w).ov = s.ov

/-! ### Encoding -/

/-- 30_encoding.md R34, R35, R37, R39: under every unambiguous table ENC, at both widths, decoding an encoded
instruction gives it back, with every operand. -/
def Obligations.DecodeOfEncode : Prop :=
  ∀ (p : Params) (i : Instr), p.enc.wellFormed = true → decode p (encode p i) = .ok i

/-- 30_encoding.md R37 to R39: a word that decodes is the encoding of its instruction, but for the OP-P word of SMMUL
on an RV32 hart that accepts it. -/
def Obligations.EncodeOfDecode : Prop :=
  ∀ (p : Params) (w : Word32) (i : Instr), decode p w = .ok i →
    w = encode p i ∨
    (p.xlen = .rv32 ∧ p.smmulOppOnRv32 = .accept ∧ w = wordOn p.enc.smmul i.rd i.rs1 i.rs2 ∧
      i = .smmul i.rd i.rs1 i.rs2)

/-- 20_memory.md R25, 30_encoding.md R33: the bytes of an instruction decode to it, whatever follows them. -/
def Obligations.DecodeOfEncodedBytes : Prop :=
  ∀ (p : Params) (i : Instr) (rest : List Byte), p.enc.wellFormed = true →
    decodeBytes p (encodeBytes p i ++ rest) = .ok (i, rest)

/-- 30_encoding.md R36: the fields of `funct7` select the instruction on RV64, and a word without the group's constant
fields is unknown there. -/
def Obligations.FunctFieldsSelectTheInstruction : Prop :=
  ∀ (p : Params) (w : Word32), p.enc = defaultEnc → p.xlen = .rv64 →
    decode p w =
      if hasGroupFields w then
        .ok (selectedBy (w.getLsbD 29) (w.getLsbD 28) (w.getLsbD 25) (rdOf w) (rs1Of w) (rs2Of w))
      else .error (.unknownWord w)

/-- 30_encoding.md R38, R39: the two words of SMMUL at the two widths. -/
def Obligations.SmmulWordsByWidth : Prop :=
  ∀ (p : Params) (rd rs1 rs2 : Reg), p.enc = defaultEnc →
    (p.xlen = .rv32 →
      decode p (wordOn mulhMatch rd rs1 rs2) = .ok (.smmul rd rs1 rs2) ∧
      (p.smmulOppOnRv32 = .refuse →
        decode p (wordOn defaultEnc.smmul rd rs1 rs2) = .error (.unknownWord (wordOn defaultEnc.smmul rd rs1 rs2))) ∧
      (p.smmulOppOnRv32 = .accept → decode p (wordOn defaultEnc.smmul rd rs1 rs2) = .ok (.smmul rd rs1 rs2))) ∧
    (p.xlen = .rv64 →
      decode p (wordOn mulhMatch rd rs1 rs2) = .error (.unknownWord (wordOn mulhMatch rd rs1 rs2)) ∧
      decode p (wordOn defaultEnc.smmul rd rs1 rs2) = .ok (.smmul rd rs1 rs2))

/-- 95_test_vectors.md section 3: words written out from the encodings, one per family, and refused neighbours. -/
def Obligations.SpecWordsDecode : Prop :=
  decode resetParams 0b01100000101101010001001011110111 = .ok (.kmmac 5 10 11) ∧
  decode resetParams 0b01010010101101010001001011110111 = .ok (.kmmsbU 5 10 11) ∧
  decode resetParams 0b01110010101101010001001011110111 = .ok (.kwmmulU 5 10 11) ∧
  decode resetParams 0b01000000101101010001001011110111 = .ok (.smmul 5 10 11) ∧
  decode { resetParams with xlen := .rv32 } 0b00000010101101010001001010110011 = .ok (.smmul 5 10 11) ∧
  decode resetParams 0xE0B512F7 = .error (.unknownWord 0xE0B512F7)

/-- 30_encoding.md R40, R41: each spelling of an instruction assembles to it. -/
def Obligations.AssemblerReadsBothSpellings : Prop :=
  ∀ (xl : Xlen) (i : Instr), assemble xl (sourceLine i) = some i ∧ assemble xl (gnuLine i) = some i

/-- 30_encoding.md R42: on RV32 `mulh` and `smmul` are two spellings of one word, the `mulh` word of R38. -/
def Obligations.MulhIsAnAliasOnRv32 : Prop :=
  ∀ (p : Params) (rd rs1 rs2 : Reg), p.xlen = .rv32 →
    assembleWord p ⟨"mulh", regName rd, regName rs1, regName rs2⟩ = some (wordOn mulhMatch rd rs1 rs2) ∧
    assembleWord p ⟨"smmul", regName rd, regName rs1, regName rs2⟩ = some (wordOn mulhMatch rd rs1 rs2)

/-! ### Per-element arithmetic -/

/-- 40_lane_arithmetic.md R46: the product is exact, its range and where it is reached, and it commutes. -/
def Obligations.ProductIsExact : Prop :=
  ∀ a b : Elem,
    (mul64 a b).toInt = product a b ∧
    -(2 ^ 62 - 2 ^ 31) ≤ product a b ∧ product a b ≤ 2 ^ 62 ∧
    (product a b = 2 ^ 62 ↔ a = 0x80000000 ∧ b = 0x80000000) ∧
    (product a b = -(2 ^ 62 - 2 ^ 31) ↔ a = 0x80000000 ∧ b = 0x7FFFFFFF ∨ a = 0x7FFFFFFF ∧ b = 0x80000000) ∧
    mul64 a b = mul64 b a

/-- 40_lane_arithmetic.md R48: the plain most significant word is the floor of the product over 2^32. -/
def Obligations.HighWordIsFloor : Prop :=
  ∀ a b : Elem, (hi a b).toInt = product a b / 2 ^ 32

/-- 40_lane_arithmetic.md R49: the rounded most significant word, as an integer and as the plain word plus the most
significant discarded bit. -/
def Obligations.RoundedHighWordIsNearest : Prop :=
  ∀ a b : Elem,
    (hiu a b).toInt = (product a b + 2 ^ 31) / 2 ^ 32 ∧
    hiu a b = BitVec.ofInt 32 ((hi a b).toInt + if (mul64 a b).getLsbD 31 then 1 else 0)

/-- 40_lane_arithmetic.md R50: the ranges of the two words, and where the bounds of the plain one are reached. The rule
names one pair for the minimum; the second pair, `0x80000001` times `0x7FFFFFFF`, reaches it too (log 26). -/
def Obligations.HighWordRanges : Prop :=
  ∀ a b : Elem,
    -(2 ^ 30) ≤ (hi a b).toInt ∧ (hi a b).toInt ≤ 2 ^ 30 ∧
    ((hi a b).toInt = 2 ^ 30 ↔ a = 0x80000000 ∧ b = 0x80000000) ∧
    ((hi a b).toInt = -(2 ^ 30) ↔
      (a = 0x80000000 ∨ a = 0x80000001) ∧ b = 0x7FFFFFFF ∨ a = 0x7FFFFFFF ∧ (b = 0x80000000 ∨ b = 0x80000001)) ∧
    -(2 ^ 30) + 1 ≤ (hiu a b).toInt ∧ (hiu a b).toInt ≤ 2 ^ 30

/-- 40_lane_arithmetic.md R50 as written ("the minimum ... only for `0x80000000` times `0x7FFFFFFF`"): another pair
reaches the minimum too (log 26), so this fails. -/
def Obligations.HighWordMinimumAtOnePairOnly : Prop :=
  ∀ a b : Elem, (hi a b).toInt = -(2 ^ 30) →
    a = 0x80000000 ∧ b = 0x7FFFFFFF ∨ a = 0x7FFFFFFF ∧ b = 0x80000000

/-- 40_lane_arithmetic.md R51: saturation of an exact integer, with strict bounds. -/
def Obligations.Sat32Saturates : Prop :=
  ∀ r : Int, (sat32 r).1.toInt = clampQ31 r ∧ ((sat32 r).2 = true ↔ outsideQ31 r)

/-- 40_lane_arithmetic.md R54, the rows of its table for the multiplicands 0, 1, -1 and for the extreme values. -/
def Obligations.HighWordsOfSpecialMultiplicands : Prop :=
  (∀ v : Elem,
    (hi 0 v = 0 ∧ hiu 0 v = 0 ∧ hi v 0 = 0 ∧ hiu v 0 = 0) ∧
    hi 1 v = (if 0 ≤ v.toInt then 0 else 0xFFFFFFFF) ∧ hiu 1 v = 0 ∧
    hi 0xFFFFFFFF v = (if 0 < v.toInt then 0xFFFFFFFF else 0) ∧
    hiu 0xFFFFFFFF v = (if v = 0x80000000 then 1 else 0)) ∧
  hi 0x7FFFFFFF 0x7FFFFFFF = 0x3FFFFFFF ∧ hiu 0x7FFFFFFF 0x7FFFFFFF = 0x3FFFFFFF ∧
  hi 0x80000000 0x80000000 = 0x40000000 ∧ hiu 0x80000000 0x80000000 = 0x40000000 ∧
  hi 0x80000000 0x7FFFFFFF = 0xC0000000 ∧ hiu 0x80000000 0x7FFFFFFF = 0xC0000001

/-- 40_lane_arithmetic.md R54, the rows of its table for the signs of the multiplicands. -/
def Obligations.HighWordsBySign : Prop :=
  ∀ a b : Elem,
    (0 < a.toInt → 0 < b.toInt →
      0 ≤ (hi a b).toInt ∧ (hi a b).toInt ≤ 2 ^ 30 - 1 ∧ 0 ≤ (hiu a b).toInt ∧ (hiu a b).toInt ≤ 2 ^ 30 - 1) ∧
    (0 < a.toInt → b.toInt < 0 →
      -(2 ^ 30) ≤ (hi a b).toInt ∧ (hi a b).toInt ≤ -1 ∧ (-(2 ^ 32) ≤ product a b → hi a b = 0xFFFFFFFF) ∧
      -(2 ^ 30) + 1 ≤ (hiu a b).toInt ∧ (hiu a b).toInt ≤ 0 ∧ (-(2 ^ 31) ≤ product a b → hiu a b = 0)) ∧
    (a.toInt < 0 → b.toInt < 0 →
      0 ≤ (hi a b).toInt ∧ (hi a b).toInt ≤ 2 ^ 30 ∧ 0 ≤ (hiu a b).toInt ∧ (hiu a b).toInt ≤ 2 ^ 30)

/-! ### What each instruction does -/

/-- 41_kmmac_kmmsb.md R56. -/
def Obligations.KmmacAddsHighWordSaturating : Prop :=
  ∀ (rd rs1 rs2 : Reg) (s : State), ∃ t, exec (.kmmac rd rs1 rs2) s = .next t ∧
    rdHolds s t rd (fun e => clampQ31 (elemInt s rd e + elemProduct s rs1 rs2 e / 2 ^ 32)) ∧
    ovSetIf s t (fun e => outsideQ31 (elemInt s rd e + elemProduct s rs1 rs2 e / 2 ^ 32)) ∧
    pcAdvanced s t ∧ sameButRdOvPc s t rd

/-- 41_kmmac_kmmsb.md R57. -/
def Obligations.KmmacUAddsRoundedWordSaturating : Prop :=
  ∀ (rd rs1 rs2 : Reg) (s : State), ∃ t, exec (.kmmacU rd rs1 rs2) s = .next t ∧
    rdHolds s t rd (fun e => clampQ31 (elemInt s rd e + (elemProduct s rs1 rs2 e + 2 ^ 31) / 2 ^ 32)) ∧
    ovSetIf s t (fun e => outsideQ31 (elemInt s rd e + (elemProduct s rs1 rs2 e + 2 ^ 31) / 2 ^ 32)) ∧
    pcAdvanced s t ∧ sameButRdOvPc s t rd

/-- 41_kmmac_kmmsb.md R58 (90_conflicts.md C1: it saturates). -/
def Obligations.KmmsbSubtractsHighWordSaturating : Prop :=
  ∀ (rd rs1 rs2 : Reg) (s : State), ∃ t, exec (.kmmsb rd rs1 rs2) s = .next t ∧
    rdHolds s t rd (fun e => clampQ31 (elemInt s rd e - elemProduct s rs1 rs2 e / 2 ^ 32)) ∧
    ovSetIf s t (fun e => outsideQ31 (elemInt s rd e - elemProduct s rs1 rs2 e / 2 ^ 32)) ∧
    pcAdvanced s t ∧ sameButRdOvPc s t rd

/-- 41_kmmac_kmmsb.md R59. -/
def Obligations.KmmsbUSubtractsRoundedWordSaturating : Prop :=
  ∀ (rd rs1 rs2 : Reg) (s : State), ∃ t, exec (.kmmsbU rd rs1 rs2) s = .next t ∧
    rdHolds s t rd (fun e => clampQ31 (elemInt s rd e - (elemProduct s rs1 rs2 e + 2 ^ 31) / 2 ^ 32)) ∧
    ovSetIf s t (fun e => outsideQ31 (elemInt s rd e - (elemProduct s rs1 rs2 e + 2 ^ 31) / 2 ^ 32)) ∧
    pcAdvanced s t ∧ sameButRdOvPc s t rd

/-- 42_kwmmul.md R60. Two clauses are the spec's own inferences: that `OV` is set at `rd = x0` too (40_lane_arithmetic.md
R55, D3, "inferred, not shown by any source"; log 14), and that the operand test is the same as saturating the doubled
product (R60, [derived]; 90_conflicts.md C3). -/
def Obligations.KwmmulDoublesSaturating : Prop :=
  ∀ (rd rs1 rs2 : Reg) (s : State), ∃ t, exec (.kwmmul rd rs1 rs2) s = .next t ∧
    rdHolds s t rd (fun e => clampQ31 (2 * elemProduct s rs1 rs2 e / 2 ^ 32)) ∧
    ovSetIf s t (fun e => elem (readX s rs1) e = 0x80000000 ∧ elem (readX s rs2) e = 0x80000000) ∧
    ovSetIf s t (fun e => outsideQ31 (2 * elemProduct s rs1 rs2 e / 2 ^ 32)) ∧
    pcAdvanced s t ∧ sameButRdOvPc s t rd

/-- 42_kwmmul.md R61. Two clauses are the spec's own inferences: that `OV` is set at `rd = x0` too (40_lane_arithmetic.md
R55, D3, "inferred, not shown by any source"; log 14), and that the operand test is the same as saturating the rounded
doubled product, so that rounding never overflows by itself (R61, [derived]; 90_conflicts.md C4). -/
def Obligations.KwmmulURoundsDoubledSaturating : Prop :=
  ∀ (rd rs1 rs2 : Reg) (s : State), ∃ t, exec (.kwmmulU rd rs1 rs2) s = .next t ∧
    rdHolds s t rd (fun e => clampQ31 ((2 * elemProduct s rs1 rs2 e + 2 ^ 31) / 2 ^ 32)) ∧
    ovSetIf s t (fun e => elem (readX s rs1) e = 0x80000000 ∧ elem (readX s rs2) e = 0x80000000) ∧
    ovSetIf s t (fun e => outsideQ31 ((2 * elemProduct s rs1 rs2 e + 2 ^ 31) / 2 ^ 32)) ∧
    pcAdvanced s t ∧ sameButRdOvPc s t rd

/-- 43_smmul.md R62. -/
def Obligations.SmmulWritesHighWord : Prop :=
  ∀ (rd rs1 rs2 : Reg) (s : State), ∃ t, exec (.smmul rd rs1 rs2) s = .next t ∧
    rdHolds s t rd (fun e => elemProduct s rs1 rs2 e / 2 ^ 32) ∧
    t.ov = s.ov ∧ pcAdvanced s t ∧ sameButRdOvPc s t rd

/-- 43_smmul.md R63. -/
def Obligations.SmmulUWritesRoundedWord : Prop :=
  ∀ (rd rs1 rs2 : Reg) (s : State), ∃ t, exec (.smmulU rd rs1 rs2) s = .next t ∧
    rdHolds s t rd (fun e => (elemProduct s rs1 rs2 e + 2 ^ 31) / 2 ^ 32) ∧
    t.ov = s.ov ∧ pcAdvanced s t ∧ sameButRdOvPc s t rd

/-- 60_exceptions.md R70, 44_control_memory_system.md R69, 10_state.md R14: every instruction completes in every state
for every operand, with no fault and no refusal, and advances `pc` by 4. -/
def Obligations.EveryInstructionCompletes : Prop :=
  ∀ (i : Instr) (s : State), ∃ t, exec i s = .next t ∧ pcAdvanced s t

/-! ### Frames -/

/-- The frame of KMMAC, KMMAC.u, KMMSB, KMMSB.u, KWMMUL and KWMMUL.u (10_state.md R12, R16; 20_memory.md R23). -/
def Obligations.FrameOfSaturatingInstructions : Prop :=
  ∀ (i : Instr) (s t : State), i.canSetOv = true → exec i s = .next t →
    (∀ j, j ≠ i.rd → readX t j = readX s j) ∧ readX t 0 = 0 ∧ (t.ov = s.ov ∨ t.ov = true) ∧
    t.params = s.params ∧ t.mark = s.mark ∧ ∀ a, readByte t.text a = readByte s.text a

/-- The frame of SMMUL and SMMUL.u (10_state.md R12, R16; 20_memory.md R23). -/
def Obligations.FrameOfPlainMultiplies : Prop :=
  ∀ (i : Instr) (s t : State), i.canSetOv = false → exec i s = .next t →
    (∀ j, j ≠ i.rd → readX t j = readX s j) ∧ readX t 0 = 0 ∧ t.ov = s.ov ∧
    t.params = s.params ∧ t.mark = s.mark ∧ ∀ a, readByte t.text a = readByte s.text a

/-- 10_state.md R16, 20_memory.md R24: over every step, `OV` is sticky, the parameters and the program text do not
change, and every register but one keeps its value. -/
def Obligations.StepKeepsStickyFlagAndText : Prop :=
  ∀ s t : State, step s = .next t →
    (s.ov = true → t.ov = true) ∧ t.params = s.params ∧ t.text = s.text ∧ t.mark = none ∧
    ∃ rd : Reg, ∀ j, j ≠ rd → readX t j = readX s j

/-! ### Rules about the group -/

/-- 40_lane_arithmetic.md R46: exchanging the source registers changes nothing. -/
def Obligations.SourcesAreSymmetric : Prop :=
  ∀ (i : Instr) (s : State), exec i.swapSources s = exec i s

/-- 40_lane_arithmetic.md R55, for the six forms that then change nothing but `pc`. -/
def Obligations.ZeroDestinationOnlyAdvancesPc : Prop :=
  ∀ (rs1 rs2 : Reg) (s : State),
    exec (.kmmac 0 rs1 rs2) s = .next (advancePc s) ∧ exec (.kmmacU 0 rs1 rs2) s = .next (advancePc s) ∧
    exec (.kmmsb 0 rs1 rs2) s = .next (advancePc s) ∧ exec (.kmmsbU 0 rs1 rs2) s = .next (advancePc s) ∧
    exec (.smmul 0 rs1 rs2) s = .next (advancePc s) ∧ exec (.smmulU 0 rs1 rs2) s = .next (advancePc s)

/-- 40_lane_arithmetic.md R55 (D3, log 14): KWMMUL and KWMMUL.u to `x0` keep their effect on `OV`. -/
def Obligations.ZeroDestinationKeepsFlagEffect : Prop :=
  ∀ (i : Instr) (rs1 rs2 : Reg) (s : State), i = .kwmmul 0 rs1 rs2 ∨ i = .kwmmulU 0 rs1 rs2 →
    ∃ t, exec i s = .next t ∧ (∀ j, readX t j = readX s j) ∧
      ovSetIf s t (fun e => elem (readX s rs1) e = 0x80000000 ∧ elem (readX s rs2) e = 0x80000000) ∧ pcAdvanced s t

/-- 40_lane_arithmetic.md R53, R47: each meaning equals the source's Operations block run element by element in place,
whatever the order of the elements. At `rd = x0` the block's `OV = 1` still happens (40 R55, D3; log 14). -/
def Obligations.MeaningsEqualSourceOperations : Prop :=
  ∀ (i : Instr) (s : State) (order : List Nat), order.Perm (List.range s.params.xlen.nelem) →
    exec i s = .next (pcOperations i order s)

/-- 40_lane_arithmetic.md R47: an element of the result depends on no other element of the operands. -/
def Obligations.ElementsAreIndependent : Prop :=
  ∀ (i : Instr) (s s' t t' : State) (e : Nat), s.params.xlen = s'.params.xlen → e < s.params.xlen.nelem →
    exec i s = .next t → exec i s' = .next t' →
    elem (readX s i.rs1) e = elem (readX s' i.rs1) e → elem (readX s i.rs2) e = elem (readX s' i.rs2) e →
    elem (readX s i.rd) e = elem (readX s' i.rd) e → elem (readX t i.rd) e = elem (readX t' i.rd) e

/-- 00_scope.md R8: on RV64 the assignment of halves to element indices cannot be observed. -/
def Obligations.HalvesCanBeExchanged : Prop :=
  ∀ (i : Instr) (s s' t t' : State), s.params.xlen = .rv64 → s'.params.xlen = .rv64 → s.ov = s'.ov →
    (∀ j, readX s' j = swapHalves (readX s j)) → exec i s = .next t → exec i s' = .next t' →
    readX t' i.rd = swapHalves (readX t i.rd) ∧ t'.ov = t.ov

/-- 10_state.md R12: KWMMUL, KWMMUL.u, SMMUL and SMMUL.u do not read `x[rd]`. -/
def Obligations.DestinationIsNotRead : Prop :=
  ∀ (i : Instr) (s : State) (v : XWord), i.readsRd = false → i.rd ≠ i.rs1 → i.rd ≠ i.rs2 →
    exec i (writeX s i.rd v) = exec i s

/-- 43_smmul.md R64: on RV32 SMMUL is `mulh`; on RV64 the two differ. -/
def Obligations.SmmulIsMulhOnRv32Only : Prop :=
  (∀ (rd rs1 rs2 : Reg) (s : State), s.params.xlen = .rv32 →
    exec (.smmul rd rs1 rs2) s = .next (advancePc (writeX s rd (mulhValue .rv32 (readX s rs1) (readX s rs2))))) ∧
  ∃ (s t : State), s.params.xlen = .rv64 ∧ exec (.smmul 5 6 7) s = .next t ∧
    readX t 5 ≠ mulhValue .rv64 (readX s 6) (readX s 7)

/-- 41_kmmac_kmmsb.md R57, the half of its last corner case that holds. -/
def Obligations.KmmacFormsAgreeWithoutHalfUnits : Prop :=
  ∀ (rd rs1 rs2 : Reg) (s : State),
    (∀ e < s.params.xlen.nelem, (mul64 (elem (readX s rs1) e) (elem (readX s rs2) e)).getLsbD 31 = false) →
    exec (.kmmacU rd rs1 rs2) s = exec (.kmmac rd rs1 rs2) s

/-- 41_kmmac_kmmsb.md R57, its last corner case as written ("exactly when"): two saturating sums can agree although
bit 31 of the product is 1 (log 25), so this fails. -/
def Obligations.KmmacFormsAgreeOnlyWithoutHalfUnits : Prop :=
  ∀ (rd rs1 rs2 : Reg) (s : State), rd ≠ 0 →
    exec (.kmmacU rd rs1 rs2) s = exec (.kmmac rd rs1 rs2) s →
    ∀ e < s.params.xlen.nelem, (mul64 (elem (readX s rs1) e) (elem (readX s rs2) e)).getLsbD 31 = false

/-- 42_kwmmul.md R61: the two forms differ exactly when bit 30 of an element's product is 1. -/
def Obligations.KwmmulFormsDifferExactlyAtBit30 : Prop :=
  ∀ (rd rs1 rs2 : Reg) (s : State), rd ≠ 0 →
    (exec (.kwmmulU rd rs1 rs2) s ≠ exec (.kwmmul rd rs1 rs2) s ↔
      ∃ e < s.params.xlen.nelem, (mul64 (elem (readX s rs1) e) (elem (readX s rs2) e)).getLsbD 30 = true)

/-- 42_kwmmul.md R60, R61: `0x80000000` is never a result of KWMMUL or KWMMUL.u. -/
def Obligations.KwmmulNeverGivesMinimum : Prop :=
  ∀ (i : Instr) (rd rs1 rs2 : Reg) (s t : State) (e : Nat), rd ≠ 0 → e < s.params.xlen.nelem →
    i = .kwmmul rd rs1 rs2 ∨ i = .kwmmulU rd rs1 rs2 → exec i s = .next t → elem (readX t rd) e ≠ 0x80000000

/-- 30_encoding.md R45: an intrinsic returns `x[rd]` after its instruction, run with the arguments in three distinct
registers other than `x0`, and updates `OV` as the instruction does. -/
def Obligations.IntrinsicsReturnTheResult : Prop :=
  ∀ (i : Instr) (s : State), i.rd ≠ 0 → i.rs1 ≠ 0 → i.rs2 ≠ 0 → i.rd ≠ i.rs1 → i.rd ≠ i.rs2 → i.rs1 ≠ i.rs2 →
    ∃ t, exec i s = .next t ∧
      readX t i.rd = (intrinsicOf i s.params.xlen (readX s i.rd) (readX s i.rs1) (readX s i.rs2)).1 ∧
      t.ov = (s.ov || (intrinsicOf i s.params.xlen (readX s i.rd) (readX s i.rs1) (readX s i.rs2)).2)

/-- 70_reset_and_hazards.md R85: an instruction right after another reads what that one left, here in a chain of two
KMMAC into one register. -/
def Obligations.ChainReadsWhatWasJustWritten : Prop :=
  ∀ (rd a b c d : Reg) (s t u : State) (e : Nat), rd ≠ 0 → rd ≠ c → rd ≠ d → e < s.params.xlen.nelem →
    exec (.kmmac rd a b) s = .next t → exec (.kmmac rd c d) t = .next u →
    elemInt u rd e =
      clampQ31 (clampQ31 (elemInt s rd e + elemProduct s a b e / 2 ^ 32) + elemProduct s c d e / 2 ^ 32)

/-! ### The whole machine -/

/-- 10_state.md R11, R13, R14, R22: every step keeps the invariant. -/
def Obligations.StepKeepsInv : Prop :=
  ∀ s t : State, s.Inv → step s = .next t → t.Inv

/-- 10_state.md R22, log 2: a step depends only on what can be read: two states with the same readings stop alike or go
on to states with the same readings. -/
def Obligations.StepDependsOnReadingsOnly : Prop :=
  ∀ s s' : State, sameReadings s s' →
    (∀ t, step s = .next t → ∃ t', step s' = .next t' ∧ sameReadings t t') ∧
    (∀ f, step s = .fault f → step s' = .fault f) ∧ ∀ r, step s = .refused r → step s' = .refused r

/-- 20_memory.md R24: from every state on its text, a step that goes on stays on the text, and no step is stuck. -/
def Obligations.RunNeverLeavesTheText : Prop :=
  ∀ s : State, s.OnText → step s ≠ .fault .stuck ∧ ∀ t, step s = .next t → t.OnText

/-- 44_control_memory_system.md R69, 70_reset_and_hazards.md R84: from every state on a text of decodable words, a step
goes on until the end of the text. -/
def Obligations.DecodableTextMakesProgress : Prop :=
  ∀ (s : State) (k : Nat), s.OnText → s.TextDecodes → s.AtWord k → k < s.params.textLen →
    ∃ t, step s = .next t ∧ t.OnText ∧ t.TextDecodes ∧ t.AtWord (k + 1)

/-- 70_reset_and_hazards.md R84: a program of `n` decodable words, whatever they are, is at its end after exactly `n`
steps, from every launch at an `ENTRY` where its end is below the top of the address space (log 12). -/
def Obligations.DecodableProgramEndsInItsLength : Prop :=
  ∀ (p : Params) (program : List Word32) (xInit : Vector XWord 32) (ovInit : Bool),
    ({ p with textLen := program.length } : Params).wellFormed = true →
    p.entry.toNat + 4 * program.length < 2 ^ p.xlen.bits →
    (∀ w ∈ program, ∃ i, decode p w = .ok i) →
    ∃ t, Host.Core.run core program.length (launch p program xInit ovInit) = .next t ∧ t.Final ∧
      t = run program.length (launch p program xInit ovInit) ∧ step t = .fault .runOver ∧
      ∀ m < program.length, ¬ (run m (launch p program xInit ovInit)).Final
end

