-- ==== Sys2Proof/Laws/Encoding.lean ====
section
/-! SUPPORT. The fields of a full word. -/

namespace Sys2Proof

theorem getLsbD_regField (r : Reg) (k : Nat) : (regField r).getLsbD k = (decide (k < 5) && r.val.testBit k) := by
  have h5 : 5 ≤ k → r.val.testBit k = false := fun h =>
    Nat.testBit_lt_two_pow (Nat.lt_of_lt_of_le r.isLt (Nat.pow_le_pow_right (n := 2) (by decide) h))
  simp only [regField, BitVec.getLsbD_ofNat]
  by_cases hk : k < 5
  · simp [hk, show k < 32 by omega]
  · simp [hk, h5 (by omega)]

/-- A match value has no bit outside the mask. -/
theorem getLsbD_of_inMask (m : Word32) (h : m &&& encMask = m) (k : Nat) (hk : encMask.getLsbD k = false) :
    m.getLsbD k = false := by
  rw [← h, BitVec.getLsbD_and, hk, Bool.and_false]

theorem toFin_eq_of_testBit (b : BitVec 5) (r : Reg) (h : ∀ k < 5, b.getLsbD k = r.val.testBit k) :
    (b.toFin : Reg) = r := by
  have : b = BitVec.ofFin r := by
    apply BitVec.eq_of_getLsbD_eq
    intro k hk
    rw [h k hk]
    rfl
  rw [this]

/-- The destination field of a full word. -/
theorem rdOf_wordOn (m : Word32) (rd rs1 rs2 : Reg) (h : m &&& encMask = m) : rdOf (wordOn m rd rs1 rs2) = rd := by
  apply toFin_eq_of_testBit
  intro k hk
  have hm : m.getLsbD (7 + k) = false := by
    apply getLsbD_of_inMask m h
    interval_cases k <;> rfl
  simp only [wordOn, BitVec.getLsbD_extractLsb', BitVec.getLsbD_or, BitVec.getLsbD_shiftLeft, getLsbD_regField, hm, hk]
  interval_cases k <;> simp

/-- The first source field of a full word. -/
theorem rs1Of_wordOn (m : Word32) (rd rs1 rs2 : Reg) (h : m &&& encMask = m) : rs1Of (wordOn m rd rs1 rs2) = rs1 := by
  apply toFin_eq_of_testBit
  intro k hk
  have hm : m.getLsbD (15 + k) = false := by
    apply getLsbD_of_inMask m h
    interval_cases k <;> rfl
  simp only [wordOn, BitVec.getLsbD_extractLsb', BitVec.getLsbD_or, BitVec.getLsbD_shiftLeft, getLsbD_regField, hm, hk]
  interval_cases k <;> simp

/-- The second source field of a full word. -/
theorem rs2Of_wordOn (m : Word32) (rd rs1 rs2 : Reg) (h : m &&& encMask = m) : rs2Of (wordOn m rd rs1 rs2) = rs2 := by
  apply toFin_eq_of_testBit
  intro k hk
  have hm : m.getLsbD (20 + k) = false := by
    apply getLsbD_of_inMask m h
    interval_cases k <;> rfl
  simp only [wordOn, BitVec.getLsbD_extractLsb', BitVec.getLsbD_or, BitVec.getLsbD_shiftLeft, getLsbD_regField, hm, hk]
  interval_cases k <;> simp

/-- The constant fields of a full word. -/
theorem wordOn_mask (m : Word32) (rd rs1 rs2 : Reg) (h : m &&& encMask = m) :
    wordOn m rd rs1 rs2 &&& encMask = m := by
  apply BitVec.eq_of_getLsbD_eq
  intro k hk
  by_cases hm : encMask.getLsbD k = true
  · rw [BitVec.getLsbD_and, hm, Bool.and_true]
    simp only [wordOn, BitVec.getLsbD_or, BitVec.getLsbD_shiftLeft, getLsbD_regField]
    interval_cases k <;> first | (simp; done) | (exfalso; revert hm; decide)
  · have hm' : encMask.getLsbD k = false := by simpa using hm
    rw [BitVec.getLsbD_and, hm', Bool.and_false, getLsbD_of_inMask m h k hm']

theorem testBit_field (w : Word32) (lo k : Nat) :
    (w.extractLsb' lo 5).toNat.testBit k = (decide (k < 5) && w.getLsbD (lo + k)) := by
  rw [← BitVec.getLsbD_extractLsb']
  rfl

/-- Any word is the full word of its constant fields and its operand fields. -/
theorem eq_wordOn (w : Word32) : w = wordOn (w &&& encMask) (rdOf w) (rs1Of w) (rs2Of w) := by
  apply BitVec.eq_of_getLsbD_eq
  intro k hk
  have hrd : ∀ j, (rdOf w).val.testBit j = (decide (j < 5) && w.getLsbD (7 + j)) := testBit_field w 7
  have hrs1 : ∀ j, (rs1Of w).val.testBit j = (decide (j < 5) && w.getLsbD (15 + j)) := testBit_field w 15
  have hrs2 : ∀ j, (rs2Of w).val.testBit j = (decide (j < 5) && w.getLsbD (20 + j)) := testBit_field w 20
  simp only [wordOn, BitVec.getLsbD_or, BitVec.getLsbD_shiftLeft, getLsbD_regField, BitVec.getLsbD_and, hrd, hrs1, hrs2]
  interval_cases k <;> simp [encMask]

/-- Each match value of a table in the mask is in the mask, and so is that of the `mulh` word. -/
theorem matchOf_inMask (p : Params) (i : Instr) (h : p.enc.inMask = true) : matchOf p i &&& encMask = matchOf p i := by
  have hall : ∀ m ∈ p.enc.matchList, m &&& encMask = m := by
    simpa [Enc.inMask, List.all_eq_true] using h
  apply hall
  cases i with
  | smmul => unfold matchOf; cases p.xlen <;> simp [Enc.matchList]
  | _ => simp [matchOf, Enc.matchList]

end Sys2Proof
end

