-- ==== Sys2Proof/Laws/State.lean ====
section
/-! SUPPORT. Every field after every update of the state: each true by rfl, so that no proof unfolds a record update. -/

namespace Sys2Proof.Machine

@[simp] theorem setParams_params (s : State) (p : Params) : (setParams s p).params = p := rfl
@[simp] theorem setParams_text (s : State) (p : Params) : (setParams s p).text = s.text := rfl
@[simp] theorem setParams_x (s : State) (p : Params) : (setParams s p).x = s.x := rfl
@[simp] theorem setParams_ov (s : State) (p : Params) : (setParams s p).ov = s.ov := rfl
@[simp] theorem setParams_pc (s : State) (p : Params) : (setParams s p).pc = s.pc := rfl
@[simp] theorem setParams_mark (s : State) (p : Params) : (setParams s p).mark = s.mark := rfl

@[simp] theorem setText_params (s : State) (m : Memory) : (setText s m).params = s.params := rfl
@[simp] theorem setText_text (s : State) (m : Memory) : (setText s m).text = m := rfl
@[simp] theorem setText_x (s : State) (m : Memory) : (setText s m).x = s.x := rfl
@[simp] theorem setText_ov (s : State) (m : Memory) : (setText s m).ov = s.ov := rfl
@[simp] theorem setText_pc (s : State) (m : Memory) : (setText s m).pc = s.pc := rfl
@[simp] theorem setText_mark (s : State) (m : Memory) : (setText s m).mark = s.mark := rfl

@[simp] theorem setX_params (s : State) (v : Vector XWord 32) : (setX s v).params = s.params := rfl
@[simp] theorem setX_text (s : State) (v : Vector XWord 32) : (setX s v).text = s.text := rfl
@[simp] theorem setX_x (s : State) (v : Vector XWord 32) : (setX s v).x = v := rfl
@[simp] theorem setX_ov (s : State) (v : Vector XWord 32) : (setX s v).ov = s.ov := rfl
@[simp] theorem setX_pc (s : State) (v : Vector XWord 32) : (setX s v).pc = s.pc := rfl
@[simp] theorem setX_mark (s : State) (v : Vector XWord 32) : (setX s v).mark = s.mark := rfl

@[simp] theorem setOv_params (s : State) (b : Bool) : (setOv s b).params = s.params := rfl
@[simp] theorem setOv_text (s : State) (b : Bool) : (setOv s b).text = s.text := rfl
@[simp] theorem setOv_x (s : State) (b : Bool) : (setOv s b).x = s.x := rfl
@[simp] theorem setOv_ov (s : State) (b : Bool) : (setOv s b).ov = b := rfl
@[simp] theorem setOv_pc (s : State) (b : Bool) : (setOv s b).pc = s.pc := rfl
@[simp] theorem setOv_mark (s : State) (b : Bool) : (setOv s b).mark = s.mark := rfl

@[simp] theorem setPc_params (s : State) (v : XWord) : (setPc s v).params = s.params := rfl
@[simp] theorem setPc_text (s : State) (v : XWord) : (setPc s v).text = s.text := rfl
@[simp] theorem setPc_x (s : State) (v : XWord) : (setPc s v).x = s.x := rfl
@[simp] theorem setPc_ov (s : State) (v : XWord) : (setPc s v).ov = s.ov := rfl
@[simp] theorem setPc_pc (s : State) (v : XWord) : (setPc s v).pc = v := rfl
@[simp] theorem setPc_mark (s : State) (v : XWord) : (setPc s v).mark = s.mark := rfl

@[simp] theorem setMark_params (s : State) (k : Option Mark) : (setMark s k).params = s.params := rfl
@[simp] theorem setMark_text (s : State) (k : Option Mark) : (setMark s k).text = s.text := rfl
@[simp] theorem setMark_x (s : State) (k : Option Mark) : (setMark s k).x = s.x := rfl
@[simp] theorem setMark_ov (s : State) (k : Option Mark) : (setMark s k).ov = s.ov := rfl
@[simp] theorem setMark_pc (s : State) (k : Option Mark) : (setMark s k).pc = s.pc := rfl
@[simp] theorem setMark_mark (s : State) (k : Option Mark) : (setMark s k).mark = k := rfl

end Sys2Proof.Machine
end

