-- ==== Sys2Proof/Laws/Memory.lean ====
section
/-! SUPPORT. The instruction memory: reading after writing, and every operation keeps the canonical form. -/

namespace Sys2Proof.Machine

theorem readByte_writeByte_same (m : Memory) (a : Nat) (v : Byte) : readByte (writeByte m a v) a = some v := by
  induction m with
  | nil => simp [writeByte, readByte]
  | cons c m ih =>
    obtain ⟨b, u⟩ := c
    simp only [writeByte]
    split
    · simp [readByte]
    · split
      · simp [readByte]
      · rename_i _ hne
        simp [readByte, hne, ih]

theorem readByte_writeByte_other (m : Memory) (a c : Nat) (v : Byte) (h : c ≠ a) :
    readByte (writeByte m a v) c = readByte m c := by
  induction m with
  | nil => simp [writeByte, readByte, h]
  | cons q m ih =>
    obtain ⟨b, u⟩ := q
    simp only [writeByte]
    split
    · simp [readByte, h]
    · split
      · rename_i _ hab
        subst hab
        simp [readByte, h]
      · simp [readByte, ih]

/-- Reading any address after writing one. -/
theorem readByte_writeByte (m : Memory) (a c : Nat) (v : Byte) :
    readByte (writeByte m a v) c = if c = a then some v else readByte m c := by
  split
  · subst c; exact readByte_writeByte_same m a v
  · exact readByte_writeByte_other m a c v ‹_›

theorem writeByte_addresses (m : Memory) (a : Nat) (v : Byte) :
    ∀ c ∈ (writeByte m a v).map Prod.fst, c = a ∨ c ∈ m.map Prod.fst := by
  induction m with
  | nil => simp [writeByte]
  | cons q m ih =>
    obtain ⟨b, u⟩ := q
    intro c hc
    simp only [writeByte] at hc
    split at hc
    · simpa using hc
    · split at hc
      · rename_i _ hab
        subst hab
        simp at hc ⊢
        tauto
      · simp only [List.map_cons, List.mem_cons] at hc ⊢
        rcases hc with hc | hc
        · exact .inr (.inl hc)
        · rcases ih c hc with h | h
          · exact .inl h
          · exact .inr (.inr h)

theorem Memory.wf_iff (m : Memory) : Memory.wf m = true ↔ (m.map Prod.fst).Pairwise (· < ·) := by
  simp [Memory.wf]

theorem wf_nil : Memory.wf [] = true := rfl

theorem reset_text_wf : Memory.wf State.reset.text = true := rfl

/-- Writing a byte keeps the canonical form. -/
theorem wf_writeByte (m : Memory) (a : Nat) (v : Byte) (h : Memory.wf m = true) :
    Memory.wf (writeByte m a v) = true := by
  rw [Memory.wf_iff] at h ⊢
  induction m with
  | nil => simp [writeByte]
  | cons q m ih =>
    obtain ⟨b, u⟩ := q
    simp only [List.map_cons, List.pairwise_cons] at h
    simp only [writeByte]
    split
    · rename_i hab
      simp only [List.map_cons, List.pairwise_cons, List.mem_cons]
      refine ⟨?_, h⟩
      rintro c (rfl | hc)
      · exact hab
      · exact Nat.lt_trans hab (h.1 c hc)
    · split
      · rename_i _ hab
        subst hab
        simpa [List.pairwise_cons] using h
      · rename_i hlt hne
        simp only [List.map_cons, List.pairwise_cons]
        refine ⟨fun c hc => ?_, ih h.2⟩
        rcases writeByte_addresses m a v c hc with rfl | hm
        · omega
        · exact h.1 c hm

/-- Writing a word keeps the canonical form. -/
theorem wf_writeWord (m : Memory) (a : Nat) (w : Word32) (h : Memory.wf m = true) :
    Memory.wf (writeWord m a w) = true :=
  wf_writeByte _ _ _ (wf_writeByte _ _ _ (wf_writeByte _ _ _ (wf_writeByte _ _ _ h)))

/-- Writing a program keeps the canonical form. -/
theorem wf_writeWords (ws : List Word32) : ∀ (m : Memory) (a : Nat), Memory.wf m = true →
    Memory.wf (writeWords m a ws) = true := by
  induction ws with
  | nil => exact fun _ _ h => h
  | cons w ws ih => exact fun m a h => ih _ _ (wf_writeWord m a w h)

/-- Loading a program leaves the memory in canonical form. -/
theorem wf_loadProgram (s : State) (entry : XWord) (program : List Word32) :
    Memory.wf (loadProgram s entry program).text = true :=
  wf_writeWords program [] _ rfl

/-- A word's four bytes put together again. -/
theorem wordOfBytes_bytes (w : Word32) :
    wordOfBytes (byteOfWord w 0) (byteOfWord w 1) (byteOfWord w 2) (byteOfWord w 3) = w := by
  apply BitVec.eq_of_getLsbD_eq
  intro i hi
  simp only [wordOfBytes, byteOfWord, BitVec.getLsbD_append, BitVec.getLsbD_extractLsb']
  interval_cases i <;> simp

/-- Reading a byte after writing a word. -/
theorem readByte_writeWord_other (m : Memory) (a c : Nat) (w : Word32) (h : c < a ∨ a + 4 ≤ c) :
    readByte (writeWord m a w) c = readByte m c := by
  simp only [writeWord, readByte_writeByte]
  repeat rw [if_neg (by omega)]

/-- Reading a word after writing it there. -/
theorem readWord_writeWord_same (m : Memory) (a : Nat) (w : Word32) : readWord (writeWord m a w) a = some w := by
  simp [readWord, writeWord, readByte_writeByte, wordOfBytes_bytes]

/-- Reading a word clear of the word just written. -/
theorem readWord_writeWord_other (m : Memory) (a c : Nat) (w : Word32) (h : c + 4 ≤ a ∨ a + 4 ≤ c) :
    readWord (writeWord m a w) c = readWord m c := by
  simp only [readWord]
  rw [readByte_writeWord_other _ _ _ _ (by omega), readByte_writeWord_other _ _ _ _ (by omega),
    readByte_writeWord_other _ _ _ _ (by omega), readByte_writeWord_other _ _ _ _ (by omega)]

/-- Words written from `a` on leave the words below `a` as they were. -/
theorem readWord_writeWords_below (ws : List Word32) : ∀ (m : Memory) (a c : Nat), c + 4 ≤ a →
    readWord (writeWords m a ws) c = readWord m c := by
  induction ws with
  | nil => exact fun _ _ _ _ => rfl
  | cons w ws ih =>
    intro m a c h
    simp only [writeWords]
    rw [ih _ _ _ (by omega), readWord_writeWord_other _ _ _ _ (by omega)]

/-- Word `k` of a program written from `a` on. -/
theorem readWord_writeWords (ws : List Word32) : ∀ (m : Memory) (a k : Nat), k < ws.length →
    readWord (writeWords m a ws) (a + 4 * k) = ws[k]? := by
  induction ws with
  | nil => intro _ _ k h; simp at h
  | cons w ws ih =>
    intro m a k h
    cases k with
    | zero =>
      simp only [writeWords, Nat.mul_zero, Nat.add_zero, List.getElem?_cons_zero]
      rw [readWord_writeWords_below _ _ _ _ (by omega), readWord_writeWord_same]
    | succ k =>
      simp only [writeWords, List.getElem?_cons_succ]
      rw [← ih (writeWord m a w) (a + 4) k (by simpa using h)]
      congr 1
      omega

end Sys2Proof.Machine
end

