-- ==== Sys2Proof/Laws/Ops.lean ====
section
/-! SUPPORT. Registers, flag and program counter: one spec lemma per operation, and what each leaves alone. -/

namespace Sys2Proof.Machine

/-! ### The width -/

@[simp] theorem truncX_rv64 (v : XWord) : truncX .rv64 v = v := rfl

/-- The value of a container at a width. -/
theorem truncX_toNat (xl : Xlen) (v : XWord) : (truncX xl v).toNat = v.toNat % 2 ^ xl.bits := by
  cases xl
  · simp [truncX, Xlen.bits]
    omega
  · simp [truncX, Xlen.bits]
    omega

theorem truncX_lt (xl : Xlen) (v : XWord) : (truncX xl v).toNat < 2 ^ xl.bits := by
  rw [truncX_toNat]
  exact Nat.mod_lt _ (by cases xl <;> decide)

/-- A value in its width is kept. -/
theorem truncX_of_lt (xl : Xlen) (v : XWord) (h : v.toNat < 2 ^ xl.bits) : truncX xl v = v := by
  apply BitVec.eq_of_toNat_eq
  rw [truncX_toNat, Nat.mod_eq_of_lt h]

@[simp] theorem truncX_truncX (xl : Xlen) (v : XWord) : truncX xl (truncX xl v) = truncX xl v :=
  truncX_of_lt xl _ (truncX_lt xl v)

@[simp] theorem truncX_zero (xl : Xlen) : truncX xl 0#64 = 0#64 := by cases xl <;> rfl

/-! ### Registers -/

@[simp] theorem readX_zero (s : State) : readX s 0 = 0 := by simp [readX]

theorem readX_of_ne (s : State) (i : Reg) (h : i ≠ 0) : readX s i = truncX s.params.xlen s.x[i] := by
  simp [readX, h]

@[simp] theorem truncX_readX (s : State) (i : Reg) : truncX s.params.xlen (readX s i) = readX s i := by
  unfold readX
  split <;> simp

theorem readX_lt (s : State) (i : Reg) : (readX s i).toNat < 2 ^ s.params.xlen.bits := by
  rw [← truncX_readX]
  exact truncX_lt _ _

@[simp] theorem writeX_zero (s : State) (v : XWord) : writeX s 0 v = s := by simp [writeX]

@[simp] theorem writeX_params (s : State) (i : Reg) (v : XWord) : (writeX s i v).params = s.params := by
  unfold writeX; split <;> rfl

@[simp] theorem writeX_text (s : State) (i : Reg) (v : XWord) : (writeX s i v).text = s.text := by
  unfold writeX; split <;> rfl

@[simp] theorem writeX_ov (s : State) (i : Reg) (v : XWord) : (writeX s i v).ov = s.ov := by
  unfold writeX; split <;> rfl

@[simp] theorem writeX_pc (s : State) (i : Reg) (v : XWord) : (writeX s i v).pc = s.pc := by
  unfold writeX; split <;> rfl

@[simp] theorem writeX_mark (s : State) (i : Reg) (v : XWord) : (writeX s i v).mark = s.mark := by
  unfold writeX; split <;> rfl

/-- The register vector after a write. -/
theorem writeX_x (s : State) (i : Reg) (v : XWord) (j : Reg) :
    (writeX s i v).x[j] = if i ≠ 0 ∧ j = i then truncX s.params.xlen v else s.x[j] := by
  unfold writeX
  by_cases h : i = 0
  · simp [h]
  · by_cases hj : j = i
    · subst hj
      simp [h]
    · have : i.val ≠ j.val := fun e => hj (Fin.ext e.symm)
      simp [h, hj, this]

/-- Any register after a write: the register written reads as the value in its width, unless it is `x0`. -/
theorem readX_writeX (s : State) (i : Reg) (v : XWord) (j : Reg) :
    readX (writeX s i v) j = if i ≠ 0 ∧ j = i then truncX s.params.xlen v else readX s j := by
  by_cases hj : j = 0
  · subst hj
    simp only [readX_zero]
    split
    · rename_i h
      exact absurd h.2.symm h.1
    · rfl
  · rw [readX_of_ne _ _ hj, readX_of_ne _ _ hj, writeX_x, writeX_params]
    split <;> simp

theorem readX_writeX_same (s : State) (i : Reg) (v : XWord) (h : i ≠ 0) :
    readX (writeX s i v) i = truncX s.params.xlen v := by
  simp [readX_writeX, h]

theorem readX_writeX_other (s : State) (i j : Reg) (v : XWord) (h : j ≠ i) :
    readX (writeX s i v) j = readX s j := by
  simp [readX_writeX, h]

/-- Of two writes to one register the last stands. -/
@[simp] theorem writeX_writeX (s : State) (i : Reg) (u v : XWord) : writeX (writeX s i u) i v = writeX s i v := by
  unfold writeX
  by_cases h : i = 0
  · simp [h]
  · simp only [h, if_false, setX_params, setX_x]
    simp [setX]

/-- A write sees only the value in its width. -/
@[simp] theorem writeX_truncX (s : State) (i : Reg) (v : XWord) :
    writeX s i (truncX s.params.xlen v) = writeX s i v := by
  simp [writeX]

/-! ### Flag -/

@[simp] theorem setOvIf_true (s : State) : setOvIf s true = setOv s true := rfl

@[simp] theorem setOvIf_false (s : State) : setOvIf s false = s := rfl

@[simp] theorem setOvIf_params (s : State) (f : Bool) : (setOvIf s f).params = s.params := by cases f <;> rfl

@[simp] theorem setOvIf_text (s : State) (f : Bool) : (setOvIf s f).text = s.text := by cases f <;> rfl

@[simp] theorem setOvIf_x (s : State) (f : Bool) : (setOvIf s f).x = s.x := by cases f <;> rfl

@[simp] theorem setOvIf_pc (s : State) (f : Bool) : (setOvIf s f).pc = s.pc := by cases f <;> rfl

@[simp] theorem setOvIf_mark (s : State) (f : Bool) : (setOvIf s f).mark = s.mark := by cases f <;> rfl

/-- The flag after `if f then OV <- 1`. -/
@[simp] theorem setOvIf_ov (s : State) (f : Bool) : (setOvIf s f).ov = (s.ov || f) := by
  cases f <;> simp [setOvIf]

@[simp] theorem readX_setOvIf (s : State) (f : Bool) (i : Reg) : readX (setOvIf s f) i = readX s i := by
  cases f <;> rfl

@[simp] theorem readX_setOv (s : State) (b : Bool) (i : Reg) : readX (setOv s b) i = readX s i := rfl

/-- Writing a register and setting the flag do not meet. -/
theorem writeX_setOv (s : State) (b : Bool) (i : Reg) (v : XWord) :
    writeX (setOv s b) i v = setOv (writeX s i v) b := by
  unfold writeX
  split <;> rfl

/-! ### Program counter -/

theorem readPc_lt (s : State) : (readPc s).toNat < 2 ^ s.params.xlen.bits := truncX_lt _ _

@[simp] theorem advancePc_params (s : State) : (advancePc s).params = s.params := rfl

@[simp] theorem advancePc_text (s : State) : (advancePc s).text = s.text := rfl

@[simp] theorem advancePc_x (s : State) : (advancePc s).x = s.x := rfl

@[simp] theorem advancePc_ov (s : State) : (advancePc s).ov = s.ov := rfl

@[simp] theorem advancePc_mark (s : State) : (advancePc s).mark = s.mark := rfl

@[simp] theorem readX_advancePc (s : State) (i : Reg) : readX (advancePc s) i = readX s i := rfl

/-- `pc` after the advance. -/
theorem readPc_advancePc (s : State) :
    (readPc (advancePc s)).toNat = ((readPc s).toNat + 4) % 2 ^ s.params.xlen.bits := by
  simp only [readPc, advancePc, setPc_params, setPc_pc, truncX_truncX]
  rw [truncX_toNat _ (_ + 4), BitVec.toNat_add]
  cases s.params.xlen <;> simp [Xlen.bits]

@[simp] theorem advancePc_pc (s : State) : (advancePc s).pc = truncX s.params.xlen (readPc s + 4) := rfl

end Sys2Proof.Machine
end

