-- ==== Sys2Proof/Laws/Operands.lean ====
section
/-! SUPPORT. Elements, the map over elements, and the end of an instruction: everything `retire` and `retireNoFlag`
can do. -/

namespace Sys2Proof.Machine

/-! ### Elements -/

@[simp] theorem elem_zero (x : Nat) : elem 0#64 x = 0#32 := by simp [elem]

theorem elem_setWidth (v : XWord) : elem ((v.setWidth 32).setWidth 64) 0 = elem v 0 := by
  apply BitVec.eq_of_getLsbD_eq
  intro i hi
  simp only [elem, BitVec.getLsbD_extractLsb', BitVec.getLsbD_setWidth]
  simp [hi]
  omega

/-- An element of the register is an element of its value in its width. -/
theorem elem_truncX (xl : Xlen) (v : XWord) (e : Nat) (h : e < xl.nelem) : elem (truncX xl v) e = elem v e := by
  cases xl with
  | rv32 =>
    obtain rfl : e = 0 := by simpa [Xlen.nelem] using h
    exact elem_setWidth v
  | rv64 => rfl

theorem getLsbD_joinElems_rv64 (f : Nat → Elem) (i : Nat) :
    (joinElems .rv64 f).getLsbD i = if i < 32 then (f 0).getLsbD i else (f 1).getLsbD (i - 32) :=
  BitVec.getLsbD_append (x := f 1) (y := f 0) (i := i)

/-- The elements of a register value put together from elements. -/
theorem elem_joinElems (xl : Xlen) (f : Nat → Elem) (e : Nat) (h : e < xl.nelem) : elem (joinElems xl f) e = f e := by
  apply BitVec.eq_of_getLsbD_eq
  intro i hi
  cases xl with
  | rv32 =>
    obtain rfl : e = 0 := by simpa [Xlen.nelem] using h
    simp [elem, joinElems, hi]
    omega
  | rv64 =>
    obtain rfl | rfl : e = 0 ∨ e = 1 := by simp [Xlen.nelem] at h; omega
    · simp [elem, getLsbD_joinElems_rv64, hi]
    · simp [elem, getLsbD_joinElems_rv64, hi]

/-- A register value put together from elements is in its width. -/
@[simp] theorem truncX_joinElems (xl : Xlen) (f : Nat → Elem) : truncX xl (joinElems xl f) = joinElems xl f := by
  apply truncX_of_lt
  cases xl with
  | rv32 => simp [joinElems, Xlen.bits]; omega
  | rv64 => exact BitVec.isLt _

/-- Two values in their width with the same elements are the same. -/
theorem eq_of_elems (xl : Xlen) (u v : XWord) (hu : truncX xl u = u) (hv : truncX xl v = v)
    (h : ∀ e < xl.nelem, elem u e = elem v e) : u = v := by
  apply BitVec.eq_of_getLsbD_eq
  intro i hi
  have key : ∀ e, e < xl.nelem → ∀ j, j < 32 → u.getLsbD (32 * e + j) = v.getLsbD (32 * e + j) := by
    intro e he j hj
    have := congrArg (fun b : Elem => b.getLsbD j) (h e he)
    simpa [elem, hj] using this
  cases xl with
  | rv32 =>
    by_cases h32 : i < 32
    · simpa using key 0 (by decide) i h32
    · rw [← hu, ← hv]
      simp [truncX, h32]
  | rv64 =>
    by_cases h32 : i < 32
    · simpa using key 0 (by decide) i h32
    · have := key 1 (by decide) (i - 32) (by omega)
      rwa [show 32 * 1 + (i - 32) = i by omega] at this

/-- A register value put together from its own elements. -/
theorem joinElems_elem (xl : Xlen) (v : XWord) : joinElems xl (elem v) = truncX xl v := by
  apply eq_of_elems xl _ _ (truncX_joinElems _ _) (truncX_truncX _ _)
  intro e he
  rw [elem_joinElems _ _ _ he, elem_truncX _ _ _ he]

theorem joinElems_congr (xl : Xlen) (f g : Nat → Elem) (h : ∀ e < xl.nelem, f e = g e) :
    joinElems xl f = joinElems xl g := by
  cases xl with
  | rv32 => simp [joinElems, h 0 (by decide)]
  | rv64 => simp [joinElems, h 0 (by decide), h 1 (by decide)]

/-- The or over elements. -/
theorem anyElem_iff (xl : Xlen) (f : Nat → Bool) : anyElem xl f = true ↔ ∃ e < xl.nelem, f e = true := by
  cases xl with
  | rv32 => simp [anyElem, Xlen.nelem]
  | rv64 =>
    simp only [anyElem, Xlen.nelem, Bool.or_eq_true]
    constructor
    · rintro (h | h)
      · exact ⟨0, by decide, h⟩
      · exact ⟨1, by decide, h⟩
    · rintro ⟨e, he, h⟩
      obtain rfl | rfl : e = 0 ∨ e = 1 := by omega
      · exact .inl h
      · exact .inr h

theorem anyElem_congr (xl : Xlen) (f g : Nat → Bool) (h : ∀ e < xl.nelem, f e = g e) : anyElem xl f = anyElem xl g := by
  cases xl with
  | rv32 => simp [anyElem, h 0 (by decide)]
  | rv64 => simp [anyElem, h 0 (by decide), h 1 (by decide)]

/-! ### The map over elements -/

/-- An element of the result of a map is the function of the same elements of the operands. -/
theorem elem_laneMap2 (xl : Xlen) (f : Elem → Elem → Elem × Bool) (a b : XWord) (e : Nat) (h : e < xl.nelem) :
    elem (laneMap2 xl f a b).1 e = (f (elem a e) (elem b e)).1 :=
  elem_joinElems xl _ e h

theorem elem_laneMap3 (xl : Xlen) (f : Elem → Elem → Elem → Elem × Bool) (d a b : XWord) (e : Nat) (h : e < xl.nelem) :
    elem (laneMap3 xl f d a b).1 e = (f (elem d e) (elem a e) (elem b e)).1 :=
  elem_joinElems xl _ e h

theorem elem_laneValues2 (xl : Xlen) (f : Elem → Elem → Elem) (a b : XWord) (e : Nat) (h : e < xl.nelem) :
    elem (laneValues2 xl f a b) e = f (elem a e) (elem b e) :=
  elem_joinElems xl _ e h

@[simp] theorem truncX_laneMap2 (xl : Xlen) (f : Elem → Elem → Elem × Bool) (a b : XWord) :
    truncX xl (laneMap2 xl f a b).1 = (laneMap2 xl f a b).1 :=
  truncX_joinElems xl _

@[simp] theorem truncX_laneMap3 (xl : Xlen) (f : Elem → Elem → Elem → Elem × Bool) (d a b : XWord) :
    truncX xl (laneMap3 xl f d a b).1 = (laneMap3 xl f d a b).1 :=
  truncX_joinElems xl _

@[simp] theorem truncX_laneValues2 (xl : Xlen) (f : Elem → Elem → Elem) (a b : XWord) :
    truncX xl (laneValues2 xl f a b) = laneValues2 xl f a b :=
  truncX_joinElems xl _

/-- The flag of a map is 1 when some element's flag is. -/
theorem laneMap2_flag (xl : Xlen) (f : Elem → Elem → Elem × Bool) (a b : XWord) :
    (laneMap2 xl f a b).2 = true ↔ ∃ e < xl.nelem, (f (elem a e) (elem b e)).2 = true :=
  anyElem_iff xl fun e => (f (elem a e) (elem b e)).2

theorem laneMap3_flag (xl : Xlen) (f : Elem → Elem → Elem → Elem × Bool) (d a b : XWord) :
    (laneMap3 xl f d a b).2 = true ↔ ∃ e < xl.nelem, (f (elem d e) (elem a e) (elem b e)).2 = true :=
  anyElem_iff xl fun e => (f (elem d e) (elem a e) (elem b e)).2

/-- Two maps that agree element by element are equal. -/
theorem laneMap2_congr (xl : Xlen) (f g : Elem → Elem → Elem × Bool) (a b a' b' : XWord)
    (h : ∀ e < xl.nelem, f (elem a e) (elem b e) = g (elem a' e) (elem b' e)) :
    laneMap2 xl f a b = laneMap2 xl g a' b' := by
  unfold laneMap2
  rw [joinElems_congr xl _ (fun x => (g (elem a' x) (elem b' x)).1) fun e he => by rw [h e he],
    anyElem_congr xl _ (fun x => (g (elem a' x) (elem b' x)).2) fun e he => by rw [h e he]]

theorem laneMap3_congr (xl : Xlen) (f g : Elem → Elem → Elem → Elem × Bool) (d a b d' a' b' : XWord)
    (h : ∀ e < xl.nelem, f (elem d e) (elem a e) (elem b e) = g (elem d' e) (elem a' e) (elem b' e)) :
    laneMap3 xl f d a b = laneMap3 xl g d' a' b' := by
  unfold laneMap3
  rw [joinElems_congr xl _ (fun x => (g (elem d' x) (elem a' x) (elem b' x)).1) fun e he => by rw [h e he],
    anyElem_congr xl _ (fun x => (g (elem d' x) (elem a' x) (elem b' x)).2) fun e he => by rw [h e he]]

/-! ### The end of an instruction -/

theorem retireNoFlag_eq_retire (s : State) (rd : Reg) (v : XWord) : retireNoFlag s rd v = retire s rd (v, false) := rfl

@[simp] theorem retire_params (s : State) (rd : Reg) (r : XWord × Bool) : (retire s rd r).params = s.params := by
  simp [retire]

@[simp] theorem retire_text (s : State) (rd : Reg) (r : XWord × Bool) : (retire s rd r).text = s.text := by
  simp [retire]

@[simp] theorem retire_mark (s : State) (rd : Reg) (r : XWord × Bool) : (retire s rd r).mark = s.mark := by
  simp [retire]

@[simp] theorem retire_ov (s : State) (rd : Reg) (r : XWord × Bool) : (retire s rd r).ov = (s.ov || r.2) := by
  simp [retire]

@[simp] theorem retire_pc (s : State) (rd : Reg) (r : XWord × Bool) :
    (retire s rd r).pc = truncX s.params.xlen (readPc s + 4) := by
  simp [retire, readPc]

/-- `pc` after an instruction. -/
theorem readPc_retire (s : State) (rd : Reg) (r : XWord × Bool) :
    (readPc (retire s rd r)).toNat = ((readPc s).toNat + 4) % 2 ^ s.params.xlen.bits := by
  rw [← readPc_advancePc]
  simp [readPc]

/-- Any register after an instruction. -/
theorem readX_retire (s : State) (rd : Reg) (r : XWord × Bool) (j : Reg) :
    readX (retire s rd r) j = if rd ≠ 0 ∧ j = rd then truncX s.params.xlen r.1 else readX s j := by
  rw [← readX_writeX]
  simp [retire]

theorem retire_x (s : State) (rd : Reg) (r : XWord × Bool) (j : Reg) :
    (retire s rd r).x[j] = if rd ≠ 0 ∧ j = rd then truncX s.params.xlen r.1 else s.x[j] := by
  rw [← writeX_x]
  simp [retire]

/-! ### The meanings, as the end of an instruction over a map -/

theorem exec_kmmac (rd rs1 rs2 : Reg) (s : State) : exec (.kmmac rd rs1 rs2) s =
    .next (retire s rd (laneMap3 s.params.xlen kmmacElem (readX s rd) (readX s rs1) (readX s rs2))) := rfl

theorem exec_kmmacU (rd rs1 rs2 : Reg) (s : State) : exec (.kmmacU rd rs1 rs2) s =
    .next (retire s rd (laneMap3 s.params.xlen kmmacUElem (readX s rd) (readX s rs1) (readX s rs2))) := rfl

theorem exec_kmmsb (rd rs1 rs2 : Reg) (s : State) : exec (.kmmsb rd rs1 rs2) s =
    .next (retire s rd (laneMap3 s.params.xlen kmmsbElem (readX s rd) (readX s rs1) (readX s rs2))) := rfl

theorem exec_kmmsbU (rd rs1 rs2 : Reg) (s : State) : exec (.kmmsbU rd rs1 rs2) s =
    .next (retire s rd (laneMap3 s.params.xlen kmmsbUElem (readX s rd) (readX s rs1) (readX s rs2))) := rfl

theorem exec_kwmmul (rd rs1 rs2 : Reg) (s : State) : exec (.kwmmul rd rs1 rs2) s =
    .next (retire s rd (laneMap2 s.params.xlen kwmmulElem (readX s rs1) (readX s rs2))) := rfl

theorem exec_kwmmulU (rd rs1 rs2 : Reg) (s : State) : exec (.kwmmulU rd rs1 rs2) s =
    .next (retire s rd (laneMap2 s.params.xlen kwmmulUElem (readX s rs1) (readX s rs2))) := rfl

theorem exec_smmul (rd rs1 rs2 : Reg) (s : State) : exec (.smmul rd rs1 rs2) s =
    .next (retire s rd (laneValues2 s.params.xlen hi (readX s rs1) (readX s rs2), false)) := rfl

theorem exec_smmulU (rd rs1 rs2 : Reg) (s : State) : exec (.smmulU rd rs1 rs2) s =
    .next (retire s rd (laneValues2 s.params.xlen hiu (readX s rs1) (readX s rs2), false)) := rfl

/-- Every instruction answers a next state, which its `retire` gives; only the six that can set `OV` pass a flag. -/
theorem exec_retires (i : Instr) (s : State) :
    ∃ r : XWord × Bool, exec i s = .next (retire s i.rd r) ∧ (i.canSetOv = false → r.2 = false) := by
  cases i with
  | kmmac rd rs1 rs2 => exact ⟨_, rfl, by simp [Instr.canSetOv]⟩
  | kmmacU rd rs1 rs2 => exact ⟨_, rfl, by simp [Instr.canSetOv]⟩
  | kmmsb rd rs1 rs2 => exact ⟨_, rfl, by simp [Instr.canSetOv]⟩
  | kmmsbU rd rs1 rs2 => exact ⟨_, rfl, by simp [Instr.canSetOv]⟩
  | kwmmul rd rs1 rs2 => exact ⟨_, rfl, by simp [Instr.canSetOv]⟩
  | kwmmulU rd rs1 rs2 => exact ⟨_, rfl, by simp [Instr.canSetOv]⟩
  | smmul rd rs1 rs2 => exact ⟨(_, false), rfl, fun _ => rfl⟩
  | smmulU rd rs1 rs2 => exact ⟨(_, false), rfl, fun _ => rfl⟩

end Sys2Proof.Machine
end

