-- ==== Sys2Proof/Laws/PerInstr.lean ====
section
/-! SUPPORT. The per-instruction family `EncodedFields`: under a table ENC that keeps the operand fields free, the word of
an instruction holds its three operands in their fields and its match value in the constant ones (30_encoding.md R34,
R35, R37). -/

namespace Sys2Proof.Laws.EncodedFields

/-- The fields of the encoding of one instruction, under every table in the mask, at both widths. -/
def Statement (i : Instr) : Prop :=
  ∀ p : Params, p.enc.inMask = true →
    rdOf (encode p i) = i.rd ∧ rs1Of (encode p i) = i.rs1 ∧ rs2Of (encode p i) = i.rs2 ∧
      encode p i &&& encMask = matchOf p i

theorem any (i : Instr) : Statement i := fun p h =>
  have hm := matchOf_inMask p i h
  ⟨rdOf_wordOn _ _ _ _ hm, rs1Of_wordOn _ _ _ _ hm, rs2Of_wordOn _ _ _ _ hm, wordOn_mask _ _ _ _ hm⟩

theorem kmmac (rd rs1 rs2 : Reg) : Statement (.kmmac rd rs1 rs2) := any _
theorem kmmacU (rd rs1 rs2 : Reg) : Statement (.kmmacU rd rs1 rs2) := any _
theorem kmmsb (rd rs1 rs2 : Reg) : Statement (.kmmsb rd rs1 rs2) := any _
theorem kmmsbU (rd rs1 rs2 : Reg) : Statement (.kmmsbU rd rs1 rs2) := any _
theorem kwmmul (rd rs1 rs2 : Reg) : Statement (.kwmmul rd rs1 rs2) := any _
theorem kwmmulU (rd rs1 rs2 : Reg) : Statement (.kwmmulU rd rs1 rs2) := any _
theorem smmul (rd rs1 rs2 : Reg) : Statement (.smmul rd rs1 rs2) := any _
theorem smmulU (rd rs1 rs2 : Reg) : Statement (.smmulU rd rs1 rs2) := any _

end Sys2Proof.Laws.EncodedFields
end

