-- ==== Sys2Proof/Laws/Step.lean ====
section
/-! SUPPORT. Fetching and the step: when there is a next word, and what a step does with it. -/

namespace Sys2Proof.Machine

/-- When there is a next word: nothing recorded, parameters accepted, the run not over, and an answer from `Fetch`. -/
theorem nextWord_ok_iff (s : State) (w : Word32) :
    nextWord s = .ok w ↔
      s.mark = none ∧ entryAddr s % 4 = 0 ∧ endAddr s ≤ 2 ^ s.params.xlen.bits ∧ (readPc s).toNat ≠ endAddr s ∧
        fetchWord s (readPc s).toNat = some w := by
  unfold nextWord
  cases hm : s.mark with
  | some m => simp
  | none =>
    simp only [true_and]
    by_cases h1 : entryAddr s % 4 ≠ 0
    · simp [h1]
    · by_cases h2 : 2 ^ s.params.xlen.bits < endAddr s
      · simp [h1, h2, Nat.not_le.mpr h2]
      · by_cases h3 : (readPc s).toNat = endAddr s
        · simp [h1, h2, h3]
        · simp only [h1, h2, h3, if_false]
          cases fetchWord s (readPc s).toNat with
          | none => simp
          | some u => simp [Nat.le_of_not_lt h2, not_not.mp h1, h3]

/-- When there is a next instruction. -/
theorem nextInstr_ok_iff (s : State) (i : Instr) :
    nextInstr s = .ok i ↔ ∃ w, nextWord s = .ok w ∧ decode s.params w = .ok i := by
  unfold nextInstr
  cases nextWord s with
  | error m => simp
  | ok w =>
    cases h : decode s.params w with
    | error e => simp [h]
    | ok j => simp [h]

theorem step_of_nextInstr (s : State) (i : Instr) (h : nextInstr s = .ok i) : step s = exec i s := by
  simp [step, h]

theorem step_of_error (s : State) (m : Mark) (h : nextInstr s = .error m) : step s = stopWith m := by
  simp [step, h]

/-- A step that answers a next state ran an instruction. -/
theorem step_next_inv (s t : State) (h : step s = .next t) : ∃ i, nextInstr s = .ok i ∧ exec i s = .next t := by
  unfold step at h
  cases hn : nextInstr s with
  | ok i => exact ⟨i, rfl, by simpa [hn] using h⟩
  | error m => cases m <;> simp [hn, stopWith] at h

/-- What `Fetch` answers only inside the text. -/
theorem fetchWord_some_inv (s : State) (a : Nat) (w : Word32) (h : fetchWord s a = some w) :
    entryAddr s ≤ a ∧ a < endAddr s ∧ (a - entryAddr s) % 4 = 0 ∧ readWord s.text a = some w := by
  unfold fetchWord at h
  split at h
  · rename_i hc
    exact ⟨hc.1, hc.2.1, hc.2.2, h⟩
  · cases h

end Sys2Proof.Machine
end

