-- ==== Sys2Proof/Tests/Slice0.lean ====
section
/-! SUPPORT. Tests of the model: ill-formed parameters are refused, words written out bit by bit decode, one-step
results from 95_test_vectors.md, and for each statement with hypotheses a witness that meets them together. -/

namespace Sys2Proof.Tests

open Sys2Proof.Machine

/-! ### Small states -/

/-- The reset parameters at a width. -/
def at_ (xl : Xlen) : Params := { resetParams with xlen := xl }

/-- The state with `x5`, `x6`, `x7` as given, other registers zero, and no program. -/
def regs (xl : Xlen) (x5 x6 x7 : XWord) (ov : Bool) : State :=
  launch (at_ xl) [] ((((Vector.replicate 32 0).set 5 x5).set 6 x6).set 7 x7) ov

/-- A program at an entry, with zero registers. -/
def prog (xl : Xlen) (entry : XWord) (ws : List Word32) : State :=
  launch { at_ xl with entry := entry } ws (Vector.replicate 32 0) false

/-- The next state of an outcome. -/
def after : Host.Outcome State Fault Refusal → Option State
  | .next t => some t
  | .fault _ => none
  | .refused _ => none

/-- A register and the flag after an outcome. -/
def result (o : Host.Outcome State Fault Refusal) (rd : Reg) : Option (XWord × Bool) :=
  (after o).map fun t => (readX t rd, t.ov)

/-- The word of `kmmac x5, x10, x11`. -/
def wKmmac : Word32 := 0x60B512F7

/-- The word of the base instruction `addi x5, x0, 1`, which is not in scope. -/
def wAddi : Word32 := 0x00100293

/-! ### Well-formedness: a term for each check that the check refuses -/

theorem test_reset_params_accepted : resetParams.wellFormed = true := by decide
theorem test_entry_misaligned : ({ resetParams with entry := 2 } : Params).wellFormed = false := by decide
theorem test_entry_outside_rv32 : ({ at_ .rv32 with entry := 0x100000000 } : Params).wellFormed = false := by decide
theorem test_text_crosses_top :
    ({ at_ .rv32 with entry := 0xFFFFFFFC, textLen := 2 } : Params).wellFormed = false := by decide
theorem test_text_ends_at_top :
    ({ at_ .rv32 with entry := 0xFFFFFFFC, textLen := 1 } : Params).wellFormed = true := by decide
theorem test_match_outside_mask :
    ({ defaultEnc with kmmac := 0x600010F7 } : Enc).wellFormed = false := by decide
theorem test_match_values_equal :
    ({ defaultEnc with kmmac := defaultEnc.kmmsb } : Enc).wellFormed = false := by decide

/-! ### Decoding: the words of 95_test_vectors.md section 3, bit by bit (funct7 rs2 rs1 funct3 rd opcode) -/

theorem test_decode_smmul : decode resetParams 0b0100000_01011_01010_001_00101_1110111 = .ok (.smmul 5 10 11) := by
  decide
theorem test_decode_smmulU : decode resetParams 0b0101000_01011_01010_001_00101_1110111 = .ok (.smmulU 5 10 11) := by
  decide
theorem test_decode_kmmac : decode resetParams 0b0110000_01011_01010_001_00101_1110111 = .ok (.kmmac 5 10 11) := by
  decide
theorem test_decode_kmmacU : decode resetParams 0b0111000_01011_01010_001_00101_1110111 = .ok (.kmmacU 5 10 11) := by
  decide
theorem test_decode_kmmsb : decode resetParams 0b0100001_01011_01010_001_00101_1110111 = .ok (.kmmsb 5 10 11) := by
  decide
theorem test_decode_kmmsbU : decode resetParams 0b0101001_01011_01010_001_00101_1110111 = .ok (.kmmsbU 5 10 11) := by
  decide
theorem test_decode_kwmmul : decode resetParams 0b0110001_01011_01010_001_00101_1110111 = .ok (.kwmmul 5 10 11) := by
  decide
theorem test_decode_kwmmulU : decode resetParams 0b0111001_01011_01010_001_00101_1110111 = .ok (.kwmmulU 5 10 11) := by
  decide
theorem test_decode_mulh_rv32 :
    decode (at_ .rv32) 0b0000001_01011_01010_001_00101_0110011 = .ok (.smmul 5 10 11) := by decide
theorem test_decode_mulh_rv64 : decode resetParams 0x02B512B3 = .error (.unknownWord 0x02B512B3) := by decide
theorem test_decode_smmul_opp_rv32 : decode (at_ .rv32) 0x40B512F7 = .error (.unknownWord 0x40B512F7) := by decide
theorem test_decode_smmul_opp_rv32_accepted :
    decode { at_ .rv32 with smmulOppOnRv32 := .accept } 0x40B512F7 = .ok (.smmul 5 10 11) := by decide
theorem test_decode_top_registers : decode resetParams 0x61FF9FF7 = .ok (.kmmac 31 31 31) := by decide
theorem test_decode_refused_fields :
    decode resetParams 0x60B522F7 = .error (.unknownWord 0x60B522F7) ∧
    decode resetParams 0x60B512B3 = .error (.unknownWord 0x60B512B3) ∧
    decode resetParams 0x64B512F7 = .error (.unknownWord 0x64B512F7) := by decide
theorem test_decode_refused_words_rv32 :
    decode (at_ .rv32) 0x44B512F7 = .error (.unknownWord 0x44B512F7) ∧
    decode (at_ .rv32) 0xE0B512F7 = .error (.unknownWord 0xE0B512F7) ∧
    decode (at_ .rv32) wAddi = .error (.unknownWord wAddi) := by decide
theorem test_decode_bytes : decodeBytes resetParams [0xF7, 0x12, 0xB5, 0x60, 0xAA] = .ok (.kmmac 5 10 11, [0xAA]) := by
  decide
theorem test_decode_three_bytes : decodeBytes resetParams [0xF7, 0x12, 0xB5] = .error (.tooFewBytes 3) := by decide
theorem test_encode_top_registers :
    encode resetParams (.kwmmulU 31 31 31) = 0x73FF9FF7 ∧ encode (at_ .rv32) (.smmul 31 31 31) = 0x03FF9FB3 := by decide

/-- The nine rows of the opcode table, by their match words. -/
theorem test_table_rows_decode :
    decodeTableWord 32 0x60001077 = some (.kmmac 0 0 0) ∧ decodeTableWord 32 0x70001077 = some (.kmmacU 0 0 0) ∧
    decodeTableWord 32 0x42001077 = some (.kmmsb 0 0 0) ∧ decodeTableWord 32 0x52001077 = some (.kmmsbU 0 0 0) ∧
    decodeTableWord 32 0x62001077 = some (.kwmmul 0 0 0) ∧ decodeTableWord 32 0x72001077 = some (.kwmmulU 0 0 0) ∧
    decodeTableWord 32 0x40001077 = some (.smmul 0 0 0) ∧ decodeTableWord 32 0x50001077 = some (.smmulU 0 0 0) ∧
    decodeTableWord 32 0x02001033 = some (.smmul 0 0 0) := by decide

/-- The nine rows as the first instruction after reset: each runs and moves `pc` on by 4. -/
theorem test_table_rows_step :
    ∀ w ∈ [0x60001077, 0x70001077, 0x42001077, 0x52001077, 0x62001077, 0x72001077, 0x40001077, 0x50001077, 0x02001033],
      (after (step (State.reset.withFetchWord 32 w))).map readPc = some 4 := by decide

/-! ### One step of each instruction, from 95_test_vectors.md section 2 -/

theorem test_kmmac_rv64_one_element_saturates :
    result (exec (.kmmac 5 6 7) (regs .rv64 0x7fffffff00000010 0x4000000000020000 0x4000000000030000 false)) 5 =
      some (0x7fffffff00000016, true) := by decide
theorem test_kmmac_all_one_register :
    result (exec (.kmmac 5 5 5) (regs .rv32 0x12345678 0 0 false)) 5 = some (0x137FBD54, false) := by decide
theorem test_kmmacU_rv64_half_unit :
    result (exec (.kmmacU 5 6 7) (regs .rv64 0x0000000180000000 0x0001800040000000 0x0001000040000000 true)) 5 =
      some (0x0000000390000000, true) := by decide
theorem test_kmmacU_rv32_ties_up :
    result (exec (.kmmacU 5 6 7) (regs .rv32 0x10 0xffff8000 0x00010000 false)) 5 = some (0x10, false) := by decide
theorem test_kmmsb_rv64_saturates_low :
    result (exec (.kmmsb 5 6 7) (regs .rv64 0x0123456789abcdef 0x0123456789abcdef 0x0123456789abcdef false)) 5 =
      some (0x0121fa0180000000, true) := by decide
theorem test_kmmsb_rd_is_rs1 :
    result (exec (.kmmsb 5 5 6) (regs .rv32 0x80000000 0x40000000 0 false)) 5 = some (0xA0000000, false) := by decide
theorem test_kmmsbU_rv64_negative_sum :
    result (exec (.kmmsbU 5 6 7) (regs .rv64 0x0000000180000000 0x0001800040000000 0x0001000040000000 true)) 5 =
      some (0xffffffff80000000, true) := by decide
theorem test_kmmsbU_rv32_saturates_high :
    result (exec (.kmmsbU 5 6 7) (regs .rv32 0x7fffffff 0x80000000 0x7fffffff false)) 5 = some (0x7fffffff, true) := by
  decide
theorem test_kwmmul_rv64_one_element_saturates :
    result (exec (.kwmmul 5 6 7) (regs .rv64 0 0x4000000080000000 0x0000000380000000 false)) 5 =
      some (0x000000017fffffff, true) := by decide
theorem test_kwmmul_to_x0_sets_ov :
    result (exec (.kwmmul 0 5 5) (regs .rv32 0x80000000 0 0 false)) 0 = some (0, true) := by decide
theorem test_kwmmulU_rv64_rounds :
    result (exec (.kwmmulU 5 6 7) (regs .rv64 0 0x0000800000004000 0x0001000000010000 false)) 5 =
      some (0x0000000100000001, false) := by decide
theorem test_kwmmulU_rv32_not_both_minimum :
    result (exec (.kwmmulU 5 6 7) (regs .rv32 0 0x80000000 0x80000001 false)) 5 = some (0x7fffffff, false) := by decide
theorem test_smmul_rv64_floor :
    result (exec (.smmul 5 6 7) (regs .rv64 0 0x80000000ffffffff 0x7fffffff00000001 true)) 5 =
      some (0xc0000000ffffffff, true) := by decide
theorem test_smmul_rv32_is_mulh :
    result (exec (.smmul 5 6 7) (regs .rv32 0 0x12345678 0x87654321 false)) 5 = some (0xF76C768D, false) := by decide
theorem test_smmulU_rv64_rounds :
    result (exec (.smmulU 5 6 7) (regs .rv64 0 0x4000000080000000 0x0000000380000000 false)) 5 =
      some (0x0000000140000000, false) := by decide
theorem test_smmulU_rd_is_rs2 :
    result (exec (.smmulU 5 6 5) (regs .rv32 0x00018000 0x00010000 0 false)) 5 = some (2, false) := by decide

/-! ### Intrinsics (95_test_vectors.md section 5) and assembler text -/

theorem test_intrinsic_kmmsbU :
    rvKmmsbU .rv64 0x0000000180000000 0x0001800040000000 0x0001000040000000 = (0xFFFFFFFF80000000, true) := by decide
theorem test_intrinsic_kwmmulU : rvKwmmulU .rv32 0x40000000 3 = (2, false) := by decide
theorem test_assemble_word : assembleWord resetParams ⟨"kmmac", "t0", "a0", "x11"⟩ = some wKmmac := by decide
theorem test_assemble_frame_pointer : assemble .rv64 ⟨"SMMUL.u", "fp", "s0", "zero"⟩ = some (.smmulU 8 8 0) := by decide
theorem test_mulh_only_on_rv32 : assemble .rv64 ⟨"mulh", "x5", "x6", "x7"⟩ = none := by decide
theorem test_asm_text : asmText (gnuLine (.kmmsbU 5 10 11)) = "kmmsb.u t0, a0, a1" := by decide

/-! ### Witnesses: launch, reset, the step -/

theorem test_witness_launch_values :
    (1 : Reg) ≠ 0 ∧ (31 : Reg) ≠ 0 ∧ readX (regs .rv32 0xFFFFFFFF12345678 0 0 true) 5 = 0x12345678 ∧
      (regs .rv32 0 0 0 true).ov = true ∧ readPc (prog .rv32 0x1000 []) = 0x1000 := by decide
theorem test_witness_launch_wellFormed :
    ({ at_ .rv32 with entry := 0xFFFFFFFC, textLen := [wKmmac].length } : Params).wellFormed = true := by decide
theorem test_witness_fetch :
    fetchWord (prog .rv64 0x1000 [wKmmac, wAddi]) 0x1004 = some wAddi ∧
    fetchWord (prog .rv64 0x1000 [wKmmac, wAddi]) 0x1008 = none ∧
    fetchWord (prog .rv64 0x1000 [wKmmac, wAddi]) 0x1002 = none ∧
    fetchWord (prog .rv64 0x1000 [wKmmac, wAddi]) 0xFFC = none := by decide
theorem test_witness_step_runs :
    (prog .rv64 0x1000 [wKmmac]).Accepted ∧ fetchWord (prog .rv64 0x1000 [wKmmac]) 0x1000 = some wKmmac ∧
      readPc (prog .rv64 0x1000 [wKmmac]) = 0x1000 ∧
      decode (prog .rv64 0x1000 [wKmmac]).params wKmmac = .ok (.kmmac 5 10 11) := by decide
theorem test_witness_unknown_word :
    (prog .rv64 0x1000 [wAddi]).Accepted ∧ fetchWord (prog .rv64 0x1000 [wAddi]) 0x1000 = some wAddi ∧
      readPc (prog .rv64 0x1000 [wAddi]) = 0x1000 ∧
      decode (prog .rv64 0x1000 [wAddi]).params wAddi = .error (.unknownWord wAddi) := by decide
theorem test_witness_end_of_text : State.reset.Accepted ∧ State.reset.Final := by decide
theorem test_witness_stuck :
    (setPc (prog .rv64 0x1000 [wKmmac]) 0x2000).Accepted ∧ ¬ (setPc (prog .rv64 0x1000 [wKmmac]) 0x2000).Final ∧
      fetchWord (setPc (prog .rv64 0x1000 [wKmmac]) 0x2000) 0x2000 = none := by decide
theorem test_witness_entry_misaligned :
    (prog .rv64 0x1002 []).mark = none ∧ entryAddr (prog .rv64 0x1002 []) % 4 ≠ 0 := by decide
theorem test_witness_text_crosses_top :
    (prog .rv32 0xFFFFFFFC [wKmmac, wKmmac]).mark = none ∧ entryAddr (prog .rv32 0xFFFFFFFC [wKmmac, wKmmac]) % 4 = 0 ∧
      2 ^ (prog .rv32 0xFFFFFFFC [wKmmac, wKmmac]).params.xlen.bits < endAddr (prog .rv32 0xFFFFFFFC [wKmmac, wKmmac]) := by
  decide
theorem test_witness_recorded_stop :
    runOne (prog .rv64 0x1000 [wAddi]) = recordMark (prog .rv64 0x1000 [wAddi]) (.refused (.unknownWord wAddi)) := by
  decide
theorem test_witness_next_state : ∃ t, step (prog .rv64 0x1000 [wKmmac]) = .next t := ⟨_, rfl⟩
theorem test_witness_placed_word :
    widthFor State.reset.params (tableWord 32 0x02001033) = .rv32 ∧
      decode { State.reset.params with xlen := .rv32 } (tableWord 32 0x02001033) = .ok (.smmul 0 0 0) := by decide

/-! ### Witnesses: encoding -/

theorem test_witness_table_wellFormed : defaultEnc.wellFormed = true := by decide
theorem test_witness_encode_of_decode :
    decode resetParams wKmmac = .ok (.kmmac 5 10 11) ∧ wKmmac = encode resetParams (.kmmac 5 10 11) ∧
      0x40B512F7 ≠ encode { at_ .rv32 with smmulOppOnRv32 := .accept } (.smmul 5 10 11) := by decide
theorem test_witness_group_fields :
    (at_ .rv64).enc = defaultEnc ∧ (at_ .rv64).xlen = .rv64 ∧ hasGroupFields wKmmac ∧ ¬ hasGroupFields 0xE0B512F7 := by
  decide
theorem test_witness_smmul_widths :
    (at_ .rv32).enc = defaultEnc ∧ (at_ .rv32).xlen = .rv32 ∧ (at_ .rv32).smmulOppOnRv32 = .refuse ∧
      ({ at_ .rv32 with smmulOppOnRv32 := .accept } : Params).smmulOppOnRv32 = .accept ∧ (at_ .rv64).xlen = .rv64 := by
  decide
theorem test_witness_mulh_alias :
    (at_ .rv32).xlen = .rv32 ∧ assembleWord (at_ .rv32) ⟨"mulh", "x0", "x31", "x0"⟩ = some 0x020F9033 := by decide

/-! ### Witnesses: arithmetic -/

theorem test_witness_high_word_minimum :
    (hi 0x80000000 0x7FFFFFFF).toInt = -(2 ^ 30) ∧ (hi 0x80000001 0x7FFFFFFF).toInt = -(2 ^ 30) ∧
      (hi 0x80000000 0x80000000).toInt = 2 ^ 30 := by decide
theorem test_witness_sat32_bounds :
    sat32 2147483647 = (0x7FFFFFFF, false) ∧ sat32 2147483648 = (0x7FFFFFFF, true) ∧
    sat32 (-2147483648) = (0x80000000, false) ∧ sat32 (-2147483649) = (0x80000000, true) := by decide

theorem test_witness_signs :
    0 < (0x7FFFFFFF : Elem).toInt ∧ (0x80000000 : Elem).toInt < 0 ∧ -(2 ^ 32) ≤ product 2 0x80000000 ∧
      -(2 ^ 31) ≤ product 1 0x80000000 := by decide

/-! ### Witnesses: instructions -/

theorem test_witness_frames :
    (Instr.kmmac 5 6 7).canSetOv = true ∧ (Instr.smmul 5 6 7).canSetOv = false ∧
      (∃ t, exec (.kmmac 5 6 7) State.reset = .next t) ∧ ∃ t, exec (.smmul 5 6 7) State.reset = .next t :=
  ⟨rfl, rfl, ⟨_, rfl⟩, _, rfl⟩
theorem test_witness_sticky :
    ∃ t, step (launch (at_ .rv64) [wKmmac] (Vector.replicate 32 0) true) = .next t ∧ t.ov = true := ⟨_, rfl, by decide⟩
theorem test_witness_element_orders :
    [1, 0].Perm (List.range (at_ .rv64).xlen.nelem) ∧ [0, 1].Perm (List.range (at_ .rv64).xlen.nelem) ∧
      [0].Perm (List.range (at_ .rv32).xlen.nelem) := by decide

/-- Two states that agree in element 1 of each register and differ in element 0. -/
theorem test_witness_independent_elements :
    let s := regs .rv64 0x7fffffff00000010 0x4000000000020000 0x4000000000030000 false
    let s' := regs .rv64 0x7fffffff0000AAAA 0x400000000002BBBB 0x400000000003CCCC false
    s.params.xlen = s'.params.xlen ∧ 1 < s.params.xlen.nelem ∧ elem (readX s 5) 1 = elem (readX s' 5) 1 ∧
      elem (readX s 6) 1 = elem (readX s' 6) 1 ∧ elem (readX s 7) 1 = elem (readX s' 7) 1 ∧
      elem (readX s 6) 0 ≠ elem (readX s' 6) 0 := by decide

/-- Two states with the halves of every register exchanged. -/
theorem test_witness_exchanged_halves :
    let s := regs .rv64 0x7fffffff00000010 0x4000000000020000 0x4000000000030000 false
    let s' := regs .rv64 0x000000107fffffff 0x0002000040000000 0x0003000040000000 false
    s.params.xlen = .rv64 ∧ s'.params.xlen = .rv64 ∧ s.ov = s'.ov ∧ ∀ j, readX s' j = swapHalves (readX s j) := by decide
theorem test_witness_destination_not_read :
    (Instr.kwmmul 5 6 7).readsRd = false ∧ (Instr.kwmmul 5 6 7).rd ≠ (Instr.kwmmul 5 6 7).rs1 ∧
      (Instr.kwmmul 5 6 7).rd ≠ (Instr.kwmmul 5 6 7).rs2 ∧ (Instr.smmulU 0 6 7).rd ≠ (Instr.smmulU 0 6 7).rs1 := by decide
theorem test_witness_smmul_rv32 :
    (regs .rv32 0 0x12345678 0x87654321 false).params.xlen = .rv32 ∧ mulhValue .rv32 0x12345678 0x87654321 = 0xF76C768D := by
  decide

/-- Products `6 * 2^32` in both elements: bit 31 is 0. -/
theorem test_witness_no_half_unit :
    let s := regs .rv64 0x10 0x0002000000020000 0x0003000000030000 false
    ∀ e < s.params.xlen.nelem, (mul64 (elem (readX s 6) e) (elem (readX s 7) e)).getLsbD 31 = false := by decide

/-- Bit 31 of the product is 1 and both sums saturate: the premise of the statement that fails, met where it fails. -/
theorem test_witness_half_unit_saturated :
    let s := regs .rv32 0x7fffffff 0x00018000 0x00010000 false
    (5 : Reg) ≠ 0 ∧ exec (.kmmacU 5 6 7) s = exec (.kmmac 5 6 7) s ∧
      (mul64 (elem (readX s 6) 0) (elem (readX s 7) 0)).getLsbD 31 = true := by
  intro s
  have h : laneMap3 s.params.xlen kmmacUElem (readX s 5) (readX s 6) (readX s 7) =
      laneMap3 s.params.xlen kmmacElem (readX s 5) (readX s 6) (readX s 7) := by decide
  exact ⟨by decide, congrArg (fun r => Host.Outcome.next (retire s 5 r)) h, by decide⟩
theorem test_witness_bit30 :
    (5 : Reg) ≠ 0 ∧ (mul64 0x00004000 0x00010000).getLsbD 30 = true ∧ (mul64 0x00008000 0x00010000).getLsbD 30 = false := by
  decide
theorem test_witness_never_minimum :
    (5 : Reg) ≠ 0 ∧ 1 < (regs .rv64 0 0 0 false).params.xlen.nelem ∧
      ∃ t, exec (.kwmmul 5 6 7) (regs .rv64 0 0x8000000080000000 0x7fffffff80000000 false) = .next t ∧
        elem (readX t 5) 1 = 0x80000001 := ⟨by decide, by decide, _, rfl, by decide⟩
theorem test_witness_zero_destination :
    (Instr.kwmmul 0 5 5 = .kwmmul 0 5 5 ∨ Instr.kwmmul 0 5 5 = .kwmmulU 0 5 5) ∧
      (Instr.kwmmulU 0 5 5 = .kwmmul 0 5 5 ∨ Instr.kwmmulU 0 5 5 = .kwmmulU 0 5 5) ∧
      result (exec (.kwmmulU 0 5 5) (regs .rv64 0x8000000000000000 0 0 false)) 0 = some (0, true) := by decide
theorem test_witness_intrinsic_registers :
    (Instr.kmmac 5 6 7).rd ≠ 0 ∧ (Instr.kmmac 5 6 7).rs1 ≠ 0 ∧ (Instr.kmmac 5 6 7).rs2 ≠ 0 ∧
      (Instr.kmmac 5 6 7).rd ≠ (Instr.kmmac 5 6 7).rs1 ∧ (Instr.kmmac 5 6 7).rd ≠ (Instr.kmmac 5 6 7).rs2 ∧
      (Instr.kmmac 5 6 7).rs1 ≠ (Instr.kmmac 5 6 7).rs2 := by decide
theorem test_witness_chain :
    (5 : Reg) ≠ 0 ∧ (5 : Reg) ≠ 6 ∧ (5 : Reg) ≠ 7 ∧ 0 < State.reset.params.xlen.nelem ∧
      ∃ t u, exec (.kmmac 5 6 7) State.reset = .next t ∧ exec (.kmmac 5 6 7) t = .next u :=
  ⟨by decide, by decide, by decide, by decide, _, _, rfl, rfl⟩

/-! ### Witnesses: the whole machine -/

theorem test_witness_inv_and_step :
    (prog .rv64 0x1000 [wKmmac]).Inv ∧ ∃ t, step (prog .rv64 0x1000 [wKmmac]) = .next t := ⟨by decide, _, rfl⟩
theorem test_witness_same_readings :
    sameReadings State.reset (setX State.reset (State.reset.x.set 0 7)) ∧
      State.reset ≠ setX State.reset (State.reset.x.set 0 7) := by decide

/-- A program at its first word, and at its end. -/
theorem test_witness_on_text :
    (prog .rv64 0x1000 [wKmmac]).OnText ∧ (setPc (prog .rv64 0x1000 [wKmmac]) 0x1004).OnText :=
  ⟨⟨by decide, by decide, by decide, ⟨0, by decide⟩, by decide⟩, by decide, by decide, by decide, ⟨1, by decide⟩, by decide⟩
theorem test_witness_text_decodes :
    (prog .rv64 0x1000 [wKmmac]).TextDecodes ∧ (prog .rv64 0x1000 [wKmmac]).AtWord 0 ∧
      0 < (prog .rv64 0x1000 [wKmmac]).params.textLen := by decide
theorem test_witness_decodable_program :
    ({ at_ .rv64 with entry := 0x1000, textLen := [wKmmac].length } : Params).wellFormed = true ∧
      (0x1000 : XWord).toNat + 4 * [wKmmac].length < 2 ^ (at_ .rv64).xlen.bits ∧
      decode (at_ .rv64) wKmmac = .ok (.kmmac 5 10 11) := by decide

end Sys2Proof.Tests
end

section
/-! PROOFS. R8: on RV64 the two halves of a register can be exchanged. Every instruction is one map over elements
(`exec_eq_laneMap3`), and a map over elements commutes with the exchange (`laneMap3_swapHalves`). -/

namespace Sys2Proof.Machine

/-! ### The exchange of halves -/

/-- The exchange joins the elements of a value in the other order. -/
theorem swapHalves_eq_joinElems (v : XWord) : swapHalves v = joinElems .rv64 fun e => elem v (1 - e) := rfl

theorem elem_swapHalves (v : XWord) (e : Nat) (h : e < 2) : elem (swapHalves v) e = elem v (1 - e) := by
  rw [swapHalves_eq_joinElems, elem_joinElems .rv64 _ e h]

/-- On RV64 the map over elements takes exchanged operands to the exchanged result, with the same flag (R47, R52). -/
theorem laneMap3_swapHalves (f : Elem → Elem → Elem → Elem × Bool) (d a b : XWord) :
    laneMap3 .rv64 f (swapHalves d) (swapHalves a) (swapHalves b) =
      (swapHalves (laneMap3 .rv64 f d a b).1, (laneMap3 .rv64 f d a b).2) := by
  apply Prod.ext
  · apply eq_of_elems .rv64 _ _ (truncX_rv64 _) (truncX_rv64 _)
    intro e he
    have he' : 1 - e < Xlen.rv64.nelem := Nat.lt_succ_of_le (Nat.sub_le 1 e)
    simp only [elem_laneMap3 _ _ _ _ _ e he, elem_swapHalves _ e he, elem_laneMap3 _ _ _ _ _ _ he']
  · simp [laneMap3, anyElem, elem_swapHalves, Bool.or_comm]

/-! ### Every instruction as one map over elements -/

theorem anyElem_false (xl : Xlen) : (anyElem xl fun _ => false) = false := by
  cases xl <;> rfl

/-- A map without a flag is a map whose flag is never set and whose accumulator is not read. -/
theorem laneValues2_eq_laneMap3 (xl : Xlen) (f : Elem → Elem → Elem) (d a b : XWord) :
    (laneValues2 xl f a b, false) = laneMap3 xl (fun _ a b => (f a b, false)) d a b :=
  Prod.ext rfl (anyElem_false xl).symm

/-- Every instruction retires the map of one function over the elements of `Rd`, `Rs1` and `Rs2` (R47). -/
theorem exec_eq_laneMap3 (i : Instr) : ∃ f : Elem → Elem → Elem → Elem × Bool, ∀ s : State,
    exec i s = .next (retire s i.rd (laneMap3 s.params.xlen f (readX s i.rd) (readX s i.rs1) (readX s i.rs2))) := by
  cases i with
  | kmmac rd rs1 rs2 => exact ⟨kmmacElem, fun _ => rfl⟩
  | kmmacU rd rs1 rs2 => exact ⟨kmmacUElem, fun _ => rfl⟩
  | kmmsb rd rs1 rs2 => exact ⟨kmmsbElem, fun _ => rfl⟩
  | kmmsbU rd rs1 rs2 => exact ⟨kmmsbUElem, fun _ => rfl⟩
  | kwmmul rd rs1 rs2 => exact ⟨fun _ a b => kwmmulElem a b, fun _ => rfl⟩
  | kwmmulU rd rs1 rs2 => exact ⟨fun _ a b => kwmmulUElem a b, fun _ => rfl⟩
  | smmul rd rs1 rs2 =>
    exact ⟨fun _ a b => (hi a b, false), fun s => by rw [exec_smmul, laneValues2_eq_laneMap3 _ _ (readX s rd)]; rfl⟩
  | smmulU rd rs1 rs2 =>
    exact ⟨fun _ a b => (hiu a b, false), fun s => by rw [exec_smmulU, laneValues2_eq_laneMap3 _ _ (readX s rd)]; rfl⟩

/-! ### The statement -/

/-- Settles O47: the instruction is one map over elements, its operands are exchanged, so its result is. -/
theorem halvesCanBeExchanged : Obligations.HalvesCanBeExchanged := by
  intro i s s' t t' hs hs' hov hread ht ht'
  obtain ⟨f, hexec⟩ := exec_eq_laneMap3 i
  rw [hexec, hs] at ht
  rw [hexec, hs', hread, hread, hread, laneMap3_swapHalves] at ht'
  cases ht
  cases ht'
  constructor
  · by_cases hrd : i.rd = 0
    · simpa [readX_retire, hrd] using hread 0
    · simp [readX_retire, hrd, hs, hs']
  · simp [hov]

end Sys2Proof.Machine
end

section
/-! PROOFS. The state (10_state.md): the launch meets the invariant and every step keeps it, the frames of the
instructions, what they do not read, and that a step depends on readings alone. Each claim about a step is a claim about
`retire`: every next state is a `retire` of the state before it (`exec_next_retire`, `step_next_retire`). -/

namespace Sys2Proof.Machine

/-! ### What a next state is -/

/-- A next state of an instruction is its `retire`; only the six that can set `OV` pass a flag. -/
theorem exec_next_retire {i : Instr} {s t : State} (h : exec i s = .next t) :
    ∃ r : XWord × Bool, t = retire s i.rd r ∧ (i.canSetOv = false → r.2 = false) := by
  obtain ⟨r, hr, hflag⟩ := exec_retires i s
  exact ⟨r, Host.Outcome.next.inj (h.symm.trans hr), hflag⟩

/-- A next state of a step is the `retire` of a state with nothing recorded. -/
theorem step_next_retire {s t : State} (h : step s = .next t) :
    s.mark = none ∧ ∃ (rd : Reg) (r : XWord × Bool), t = retire s rd r := by
  obtain ⟨i, hi, hexec⟩ := step_next_inv s t h
  obtain ⟨w, hw, -⟩ := (nextInstr_ok_iff s i).mp hi
  obtain ⟨hmark, -⟩ := (nextWord_ok_iff s w).mp hw
  obtain ⟨r, ht, -⟩ := exec_next_retire hexec
  exact ⟨hmark, i.rd, r, ht⟩

/-- The end of an instruction changes no register but its destination. -/
theorem readX_retire_other (s : State) (rd : Reg) (r : XWord × Bool) (j : Reg) (h : j ≠ rd) :
    readX (retire s rd r) j = readX s j := by
  simp [readX_retire, h]

/-- A write to the destination just before the end of an instruction is lost. -/
theorem retire_writeX (s : State) (rd : Reg) (v : XWord) (r : XWord × Bool) :
    retire (writeX s rd v) rd r = retire s rd r := by
  simp [retire]

/-! ### The invariant is kept -/

theorem four_dvd_two_pow_bits (xl : Xlen) : 4 ∣ 2 ^ xl.bits := by
  cases xl <;> decide

theorem regsInWidth_retire {s : State} (rd : Reg) (r : XWord × Bool) (h : s.RegsInWidth) :
    (retire s rd r).RegsInWidth := by
  intro j
  rw [retire_x, retire_params]
  split
  · exact truncX_lt _ _
  · exact h j

theorem zeroSlot_retire {s : State} (rd : Reg) (r : XWord × Bool) (h : s.ZeroSlot) : (retire s rd r).ZeroSlot := by
  have hkept : ¬ (rd ≠ 0 ∧ 0 = rd) := fun hrd => hrd.1 hrd.2.symm
  rw [State.ZeroSlot, retire_x, if_neg hkept]
  exact h

/-- The advance by 4 keeps `pc` a multiple of 4 even where it wraps, since `2^XLEN` is one too (R14). -/
theorem pcAligned_retire {s : State} (rd : Reg) (r : XWord × Bool) (h : s.PcAligned) : (retire s rd r).PcAligned := by
  obtain ⟨hlt, halign⟩ := h
  have hpc : (retire s rd r).pc.toNat = (s.pc.toNat + 4) % 2 ^ s.params.xlen.bits := by
    have hread := readPc_retire s rd r
    rwa [readPc, retire_params, retire_pc, truncX_truncX, ← retire_pc s rd r, readPc, truncX_of_lt _ _ hlt] at hread
  constructor
  · rw [retire_pc, retire_params]
    exact truncX_lt _ _
  · rw [hpc, Nat.mod_mod_of_dvd _ (four_dvd_two_pow_bits _), Nat.add_mod_right, halign]

theorem inv_retire {s : State} (rd : Reg) (r : XWord × Bool) (h : s.Inv) : (retire s rd r).Inv := by
  obtain ⟨hparams, htext, hregs, hzero, hpc, hmark⟩ := h
  exact ⟨(retire_params s rd r).symm ▸ hparams, (retire_text s rd r).symm ▸ htext, regsInWidth_retire rd r hregs,
    zeroSlot_retire rd r hzero, pcAligned_retire rd r hpc, (retire_mark s rd r).trans hmark⟩

/-- Settles O56: the next state is a `retire`, which keeps each part of the invariant. -/
theorem stepKeepsInv : Obligations.StepKeepsInv := by
  intro s t hinv hstep
  obtain ⟨-, rd, r, rfl⟩ := step_next_retire hstep
  exact inv_retire rd r hinv

/-! ### The launch meets the invariant -/

theorem params_wellFormed_iff (p : Params) :
    p.wellFormed = true ↔ p.enc.wellFormed = true ∧ p.entry.toNat % 4 = 0 ∧ p.entry.toNat < 2 ^ p.xlen.bits ∧
      p.entry.toNat + 4 * p.textLen ≤ 2 ^ p.xlen.bits := by
  simp [Params.wellFormed, Params.entryAligned, Params.entryInSpace, Params.textFits, and_assoc]

/-- The parameters of a launch: the `ENTRY` in its width, and the length of the program. -/
theorem launch_params (p : Params) (program : List Word32) (xInit : Vector XWord 32) (ovInit : Bool) :
    (launch p program xInit ovInit).params =
      { p with entry := truncX p.xlen p.entry, textLen := program.length } := rfl

/-- The register vector of a launch. -/
theorem launch_x (p : Params) (program : List Word32) (xInit : Vector XWord 32) (ovInit : Bool) (i : Reg) :
    (launch p program xInit ovInit).x[i] = if i = 0 then 0 else truncX p.xlen xInit[i] := by
  simp [launch, loadProgram]

theorem regsInWidth_launch (p : Params) (program : List Word32) (xInit : Vector XWord 32) (ovInit : Bool) :
    (launch p program xInit ovInit).RegsInWidth := by
  intro i
  rw [launch_x, launch_params]
  split
  · simp
  · exact truncX_lt _ _

/-- Settles O2: an `ENTRY` in the address space is its own value in its width, so the launch has the parameters given,
and `pc` is `ENTRY`. -/
theorem launchMeetsInv : Obligations.LaunchMeetsInv := by
  intro p program xInit ovInit hwf
  obtain ⟨-, halign, hspace, -⟩ := (params_wellFormed_iff _).mp hwf
  have hentry : truncX p.xlen p.entry = p.entry := truncX_of_lt _ _ hspace
  have hparams : (launch p program xInit ovInit).params = { p with textLen := program.length } := by
    rw [launch_params, hentry]
  have hpc : (launch p program xInit ovInit).pc = p.entry := hentry
  refine ⟨hparams ▸ hwf, wf_loadProgram _ _ _, regsInWidth_launch p program xInit ovInit, launch_x .., ?_, rfl⟩
  rw [State.PcAligned, hpc, hparams]
  exact ⟨hspace, halign⟩

/-- Settles O3: the reset state is a launch, so it meets the invariant, and `pc` is at the end of the empty text. -/
theorem resetMeetsInv : Obligations.ResetMeetsInv := by
  have hlaunch : State.reset = launch resetParams [] (Vector.replicate 32 0) false := by decide
  refine ⟨hlaunch, ?_, by decide, by decide, by decide, ⟨0, by decide⟩, rfl⟩
  rw [hlaunch]
  exact launchMeetsInv _ _ _ _ (by decide)

/-! ### Registers and parameters -/

/-- Settles O4: the two cases of `readX_writeX`, and `x0`, which reads as zero in both. -/
theorem registerReadsWhatWasWritten : Obligations.RegisterReadsWhatWasWritten := by
  intro s i j v
  by_cases hj : j = 0
  · rw [if_pos hj, hj, readX_zero]
  · by_cases hji : j = i
    · rw [if_neg hj, if_pos hji, hji, readX_writeX_same s i v (hji ▸ hj)]
    · rw [if_neg hj, if_neg hji, readX_writeX_other s i j v hji]

theorem nextWord_of_entryMisaligned {s : State} (hmark : s.mark = none) (h : entryAddr s % 4 ≠ 0) :
    nextWord s = .error (.refused .entryMisaligned) := by
  simp [nextWord, hmark, h]

theorem nextWord_of_textCrossesTop {s : State} (hmark : s.mark = none) (halign : entryAddr s % 4 = 0)
    (h : 2 ^ s.params.xlen.bits < endAddr s) : nextWord s = .error (.refused .textCrossesTop) := by
  simp [nextWord, hmark, halign, h]

theorem step_of_nextWord_error {s : State} {m : Mark} (h : nextWord s = .error m) : step s = stopWith m :=
  step_of_error s m (by simp [nextInstr, h])

/-- Settles O10: with nothing recorded the parameters are what `nextWord` looks at first. -/
theorem unacceptedParametersAreRefused : Obligations.UnacceptedParametersAreRefused := by
  intro s hmark
  constructor
  · intro hmis
    exact step_of_nextWord_error (nextWord_of_entryMisaligned hmark hmis)
  · intro halign htop
    exact step_of_nextWord_error (nextWord_of_textCrossesTop hmark halign htop)

/-! ### Frames -/

/-- Settles O39: the frame of `retire`, which sets `OV` or keeps it. -/
theorem frameOfSaturatingInstructions : Obligations.FrameOfSaturatingInstructions := by
  intro i s t _ hexec
  obtain ⟨r, rfl, -⟩ := exec_next_retire hexec
  refine ⟨readX_retire_other s i.rd r, readX_zero _, ?_, retire_params .., retire_mark .., fun a => by rw [retire_text]⟩
  cases hflag : r.2
  · exact .inl (by simp [hflag])
  · exact .inr (by simp [hflag])

/-- Settles O40: the frame of `retire` without a flag. -/
theorem frameOfPlainMultiplies : Obligations.FrameOfPlainMultiplies := by
  intro i s t hplain hexec
  obtain ⟨r, rfl, hflag⟩ := exec_next_retire hexec
  exact ⟨readX_retire_other s i.rd r, readX_zero _, by simp [hflag hplain], retire_params .., retire_mark ..,
    fun a => by rw [retire_text]⟩

/-- Settles O41: the frame of `retire`, with `rd` the one register; a step goes on only with nothing recorded. -/
theorem stepKeepsStickyFlagAndText : Obligations.StepKeepsStickyFlagAndText := by
  intro s t hstep
  obtain ⟨hmark, rd, r, rfl⟩ := step_next_retire hstep
  exact ⟨fun hov => by simp [hov], retire_params .., retire_text .., (retire_mark ..).trans hmark, rd,
    readX_retire_other s rd r⟩

/-! ### What is not read -/

/-- The four instructions without an accumulator retire a function of their two sources (R12). -/
theorem exec_of_not_readsRd (i : Instr) (h : i.readsRd = false) : ∃ g : Xlen → XWord → XWord → XWord × Bool,
    ∀ s : State, exec i s = .next (retire s i.rd (g s.params.xlen (readX s i.rs1) (readX s i.rs2))) := by
  cases i with
  | kmmac => cases h
  | kmmacU => cases h
  | kmmsb => cases h
  | kmmsbU => cases h
  | kwmmul rd rs1 rs2 => exact ⟨rvKwmmul, exec_kwmmul rd rs1 rs2⟩
  | kwmmulU rd rs1 rs2 => exact ⟨rvKwmmulU, exec_kwmmulU rd rs1 rs2⟩
  | smmul rd rs1 rs2 => exact ⟨rvSmmul, exec_smmul rd rs1 rs2⟩
  | smmulU rd rs1 rs2 => exact ⟨rvSmmulU, exec_smmulU rd rs1 rs2⟩

/-- Settles O48: the sources read as before the write, and `retire` writes the destination again. -/
theorem destinationIsNotRead : Obligations.DestinationIsNotRead := by
  intro i s v hreads hrs1 hrs2
  obtain ⟨g, hexec⟩ := exec_of_not_readsRd i hreads
  rw [hexec, hexec, writeX_params, readX_writeX_other s _ _ v hrs1.symm, readX_writeX_other s _ _ v hrs2.symm,
    retire_writeX]

/-! ### A step depends on readings alone -/

theorem entryAddr_of_params {s s' : State} (h : s.params = s'.params) : entryAddr s = entryAddr s' := by
  rw [entryAddr, entryAddr, h]

theorem endAddr_of_params {s s' : State} (h : s.params = s'.params) : endAddr s = endAddr s' := by
  rw [endAddr, endAddr, entryAddr_of_params h, h]

theorem nextWord_of_sameReadings {s s' : State} (h : sameReadings s s') : nextWord s = nextWord s' := by
  obtain ⟨hparams, htext, hmark, -, -, hpc⟩ := h
  unfold nextWord fetchWord
  rw [hmark, entryAddr_of_params hparams, endAddr_of_params hparams, hparams, htext, hpc]

theorem nextInstr_of_sameReadings {s s' : State} (h : sameReadings s s') : nextInstr s = nextInstr s' := by
  have hword := nextWord_of_sameReadings h
  obtain ⟨hparams, -⟩ := h
  rw [nextInstr, nextInstr, hword, hparams]

/-- The end of an instruction with one result keeps states alike. -/
theorem sameReadings_retire {s s' : State} (rd : Reg) (r : XWord × Bool) (h : sameReadings s s') :
    sameReadings (retire s rd r) (retire s' rd r) := by
  obtain ⟨hparams, htext, hmark, hregs, hov, hpc⟩ := h
  refine ⟨by simp [hparams], by simp [htext], by simp [hmark], fun j => ?_, by simp [hov], ?_⟩
  · rw [readX_retire, readX_retire, hparams, hregs]
  · apply BitVec.eq_of_toNat_eq
    rw [readPc_retire, readPc_retire, hparams, hpc]

/-- An instruction takes states with the same readings to states with the same readings: its result is a function of
what it reads. -/
theorem exec_of_sameReadings (i : Instr) {s s' : State} (h : sameReadings s s') :
    ∃ t t', exec i s = .next t ∧ exec i s' = .next t' ∧ sameReadings t t' := by
  have halike := h
  obtain ⟨hparams, -, -, hregs, -, -⟩ := h
  obtain ⟨f, hexec⟩ := exec_eq_laneMap3 i
  refine ⟨_, _, hexec s, hexec s', ?_⟩
  rw [hparams, hregs, hregs, hregs]
  exact sameReadings_retire i.rd _ halike

/-- From states with the same readings a step goes on to such states, or stops with one mark. -/
theorem step_of_sameReadings {s s' : State} (h : sameReadings s s') :
    (∃ t t', step s = .next t ∧ step s' = .next t' ∧ sameReadings t t') ∨
      ∃ m, step s = stopWith m ∧ step s' = stopWith m := by
  have hinstr := nextInstr_of_sameReadings h
  cases hn : nextInstr s with
  | ok i =>
    rw [step_of_nextInstr s i hn, step_of_nextInstr s' i (hinstr ▸ hn)]
    exact .inl (exec_of_sameReadings i h)
  | error m => exact .inr ⟨m, step_of_error s m hn, step_of_error s' m (hinstr ▸ hn)⟩

/-- Settles O57: both states run one instruction on the same operands, or both stop with one mark. -/
theorem stepDependsOnReadingsOnly : Obligations.StepDependsOnReadingsOnly := by
  intro s s' h
  obtain ⟨t, t', ht, ht', halike⟩ | ⟨m, hm, hm'⟩ := step_of_sameReadings h
  · rw [ht, ht']
    refine ⟨fun u hu => ?_, nofun, nofun⟩
    cases hu
    exact ⟨t', rfl, halike⟩
  · rw [hm, hm']
    cases m with
    | refused => exact ⟨nofun, fun _ hf => hf, fun _ hr => hr⟩
    | faulted => exact ⟨nofun, fun _ hf => hf, fun _ hr => hr⟩

end Sys2Proof.Machine
end

section
/-! PROOFS. The instruction memory (20_memory.md): what `Fetch` answers on and off the words of the program, for every
state and after a launch, that the bytes of an instruction decode to it, and that standing on the text is an
invariant. -/

namespace Sys2Proof.Machine

/-! ### What `Fetch` answers (R24) -/

/-- `Fetch` at the address of word `k` answers word `k`. -/
theorem fetchWord_word (s : State) {k : Nat} (h : k < s.params.textLen) :
    fetchWord s (entryAddr s + 4 * k) = programWord s k := by
  have hend : entryAddr s + 4 * k < endAddr s := by rw [endAddr]; omega
  rw [fetchWord, if_pos ⟨Nat.le_add_right _ _, hend, by omega⟩, programWord]

/-- `Fetch` answers at no address but those of the words. -/
theorem fetchWord_eq_none (s : State) {a : Nat} (h : ∀ k < s.params.textLen, a ≠ entryAddr s + 4 * k) :
    fetchWord s a = none := by
  cases hf : fetchWord s a with
  | none => rfl
  | some w =>
    obtain ⟨hle, hlt, halign, -⟩ := fetchWord_some_inv s a w hf
    rw [endAddr] at hlt
    exact absurd (show a = entryAddr s + 4 * ((a - entryAddr s) / 4) by omega) (h _ (by omega))

theorem entryAddr_launch (p : Params) (program : List Word32) (xInit : Vector XWord 32) (ovInit : Bool) :
    entryAddr (launch p program xInit ovInit) = (truncX p.xlen p.entry).toNat :=
  congrArg BitVec.toNat (truncX_truncX p.xlen p.entry)

/-- After a launch the instruction memory holds the program. -/
theorem programWord_launch (p : Params) (program : List Word32) (xInit : Vector XWord 32) (ovInit : Bool) {k : Nat}
    (h : k < program.length) : programWord (launch p program xInit ovInit) k = program[k]? := by
  rw [programWord, entryAddr_launch]
  exact readWord_writeWords program [] _ k h

/-- Settles O5: `Fetch` answers the words in memory and nothing else, and a launch puts the program there. -/
theorem fetchAnswersTheProgram : Obligations.FetchAnswersTheProgram := by
  intro p program xInit ovInit
  refine ⟨fun k hk => ?_, fun a ha => fetchWord_eq_none _ ha⟩
  rw [fetchWord_word _ hk, programWord_launch p program xInit ovInit hk]

/-! ### The step of an accepted state, by what `Fetch` answers -/

theorem nextWord_of_final {s : State} (hacc : s.Accepted) (hfin : s.Final) :
    nextWord s = .error (.faulted .runOver) := by
  obtain ⟨hmark, halign, htop⟩ := hacc
  simp [nextWord, hmark, halign, Nat.not_lt.mpr htop, hfin]

theorem nextWord_of_fetchWord_none {s : State} (hacc : s.Accepted) (hfin : ¬ s.Final)
    (hfetch : fetchWord s (readPc s).toNat = none) : nextWord s = .error (.faulted .stuck) := by
  obtain ⟨hmark, halign, htop⟩ := hacc
  simp [nextWord, hmark, halign, Nat.not_lt.mpr htop, hfin, hfetch]

/-- A step that has a word to run raises no fault: it runs an instruction (R70) or refuses the word (R43). -/
theorem step_ne_fault {s : State} {w : Word32} (h : nextWord s = .ok w) (f : Fault) : step s ≠ .fault f := by
  cases hd : decode s.params w with
  | ok i =>
    obtain ⟨r, hexec, -⟩ := exec_retires i s
    rw [step_of_nextInstr s i ((nextInstr_ok_iff s i).mpr ⟨w, h, hd⟩), hexec]
    exact nofun
  | error e =>
    rw [step_of_error s (.refused (.unknownWord w)) (by simp [nextInstr, h, hd])]
    exact nofun

/-- Settles O9: with the parameters accepted and the run not over, `nextWord` is what `Fetch` answers. -/
theorem stepWithoutFetchAnswerIsStuck : Obligations.StepWithoutFetchAnswerIsStuck := by
  intro s hacc hfin hfetch
  exact step_of_nextWord_error (nextWord_of_fetchWord_none hacc hfin hfetch)

/-! ### The bytes of an instruction (R25) -/

/-- A word with the operand fields and the match value of an instruction decodes to it: the match values are pairwise
different, so no other row of `ENC` selects the word (30_encoding.md R37, R39). -/
theorem decode_of_fields (p : Params) (w : Word32) (i : Instr) (hdistinct : p.enc.distinct = true)
    (hrd : rdOf w = i.rd) (hrs1 : rs1Of w = i.rs1) (hrs2 : rs2Of w = i.rs2) (hmatch : w &&& encMask = matchOf p i) :
    decode p w = .ok i := by
  have hne : p.enc.matchList.Pairwise fun m n => m ≠ n ∧ n ≠ m :=
    (of_decide_eq_true hdistinct).imp fun h => ⟨h, h.symm⟩
  simp only [Enc.matchList, List.pairwise_cons, List.mem_cons, forall_eq_or_imp] at hne
  simp only [decode, hrd, hrs1, hrs2, hmatch]
  cases i with
  | smmul => cases hx : p.xlen <;> simp [matchOf, hx, Instr.rd, Instr.rs1, Instr.rs2, hne]
  | _ => simp [matchOf, Instr.rd, Instr.rs1, Instr.rs2, hne]

/-- Decoding an encoded instruction gives it back. -/
theorem decode_encode (p : Params) (i : Instr) (h : p.enc.wellFormed = true) : decode p (encode p i) = .ok i := by
  obtain ⟨hmask, hdistinct⟩ := Bool.and_eq_true_iff.mp h
  obtain ⟨hrd, hrs1, hrs2, hmatch⟩ := Sys2Proof.Laws.EncodedFields.any i p hmask
  exact decode_of_fields p _ i hdistinct hrd hrs1 hrs2 hmatch

/-- The decoder of bytes takes the four bytes of a word and leaves the rest. -/
theorem decodeBytes_bytesOfWord (p : Params) {w : Word32} {i : Instr} (rest : List Byte) (h : decode p w = .ok i) :
    decodeBytes p (bytesOfWord w ++ rest) = .ok (i, rest) := by
  simp [bytesOfWord, decodeBytes, wordOfBytes_bytes, h]

/-- Settles O16: the four bytes put together are the word of the instruction, which decodes to it. -/
theorem decodeOfEncodedBytes : Obligations.DecodeOfEncodedBytes := by
  intro p i rest h
  exact decodeBytes_bytesOfWord p rest (decode_encode p i h)

/-! ### Standing on the text -/

theorem accepted_of_onText {s : State} (h : s.OnText) : s.Accepted := by
  obtain ⟨halign, htop, -, -, hmark⟩ := h
  exact ⟨hmark, halign, Nat.le_of_lt htop⟩

/-- `pc` at word `k` is at the end of the text, or at a word that `Fetch` is asked for. -/
theorem final_or_lt_of_atWord {s : State} {k : Nat} (h : s.AtWord k) : s.Final ∨ k < s.params.textLen := by
  obtain ⟨hk, hpc⟩ := h
  rcases Nat.lt_or_eq_of_le hk with hlt | heq
  · exact .inr hlt
  · exact .inl (by rw [State.Final, hpc, heq, endAddr])

/-- At a word of the text there is a next word. -/
theorem nextWord_of_atWord {s : State} {k : Nat} (h : s.OnText) (hat : s.AtWord k) (hk : k < s.params.textLen) :
    ∃ w, programWord s k = some w ∧ nextWord s = .ok w := by
  obtain ⟨hmark, halign, htop⟩ := accepted_of_onText h
  obtain ⟨-, -, hpresent, -, -⟩ := h
  obtain ⟨-, hpc⟩ := hat
  obtain ⟨w, hw⟩ := Option.isSome_iff_exists.mp (hpresent k hk)
  have hnotFinal : (readPc s).toNat ≠ endAddr s := by rw [hpc, endAddr]; omega
  have hfetch : fetchWord s (readPc s).toNat = some w := by rw [hpc, fetchWord_word s hk, hw]
  exact ⟨w, hw, (nextWord_ok_iff s w).mpr ⟨hmark, halign, htop, hnotFinal, hfetch⟩⟩

/-- The end of an instruction at word `k` is at word `k + 1`: below the top of the address space `pc` does not wrap. -/
theorem atWord_retire {s : State} {k : Nat} (rd : Reg) (r : XWord × Bool) (htop : endAddr s < 2 ^ s.params.xlen.bits)
    (hat : s.AtWord k) (hk : k < s.params.textLen) : (retire s rd r).AtWord (k + 1) := by
  obtain ⟨-, hpc⟩ := hat
  have hparams := retire_params s rd r
  have hlt : entryAddr s + 4 * (k + 1) < 2 ^ s.params.xlen.bits := by rw [endAddr] at htop; omega
  refine ⟨hparams ▸ hk, ?_⟩
  rw [entryAddr_of_params hparams, readPc_retire, hpc, ← Nat.mod_eq_of_lt hlt]
  rfl

/-- The end of an instruction leaves the program as it was. -/
theorem programWord_retire (s : State) (rd : Reg) (r : XWord × Bool) (k : Nat) :
    programWord (retire s rd r) k = programWord s k := by
  rw [programWord, programWord, retire_text, entryAddr_of_params (retire_params s rd r)]

/-- The end of an instruction at a word of the text stands on the text again. -/
theorem onText_retire {s : State} {k : Nat} (rd : Reg) (r : XWord × Bool) (h : s.OnText) (hat : s.AtWord k)
    (hk : k < s.params.textLen) : (retire s rd r).OnText := by
  obtain ⟨halign, htop, hpresent, -, hmark⟩ := h
  have hparams := retire_params s rd r
  refine ⟨?_, ?_, ?_, ⟨k + 1, atWord_retire rd r htop hat hk⟩, (retire_mark s rd r).trans hmark⟩
  · rwa [entryAddr_of_params hparams]
  · rwa [endAddr_of_params hparams, hparams]
  · intro j hj
    rw [programWord_retire]
    exact hpresent j (hparams ▸ hj)

/-- Settles O58: at the end of the text the run is over; at a word of it `Fetch` answers, and the next state is a
`retire`, at the next word. -/
theorem runNeverLeavesTheText : Obligations.RunNeverLeavesTheText := by
  intro s h
  have honText := h
  obtain ⟨-, -, -, ⟨k, hat⟩, -⟩ := h
  rcases final_or_lt_of_atWord hat with hfin | hk
  · rw [step_of_nextWord_error (nextWord_of_final (accepted_of_onText honText) hfin)]
    exact ⟨nofun, nofun⟩
  · obtain ⟨w, -, hw⟩ := nextWord_of_atWord honText hat hk
    refine ⟨step_ne_fault hw .stuck, fun t hstep => ?_⟩
    obtain ⟨-, rd, r, rfl⟩ := step_next_retire hstep
    exact onText_retire rd r honText hat hk

end Sys2Proof.Machine
end

section
/-! PROOFS. The encoding (30_encoding.md): what the decoder answers and when it knows no instruction, the fields of
`funct7`, the two words of SMMUL, the assembler's names, and the intrinsics. The decoder reads its constant fields
through the mask alone, so each claim about words is a claim about match values (`MaskedSelects`). -/

namespace Sys2Proof.Machine

/-! ### What the decoder answers (R39) -/

/-- The masked word `k` selects the instruction: it is the instruction's match value, or the OP-P one of SMMUL on an
RV32 hart that accepts it (R38). -/
def MaskedSelects (p : Params) (k : Word32) (i : Instr) : Prop :=
  k = matchOf p i ∨
    (p.xlen = .rv32 ∧ p.smmulOppOnRv32 = .accept ∧ k = p.enc.smmul ∧ i = .smmul i.rd i.rs1 i.rs2)

theorem matchOf_smmul_rv64 {p : Params} (h : p.xlen = .rv64) (rd rs1 rs2 : Reg) :
    matchOf p (.smmul rd rs1 rs2) = p.enc.smmul := by
  simp [matchOf, h]

theorem matchOf_smmul_rv32 {p : Params} (h : p.xlen = .rv32) (rd rs1 rs2 : Reg) :
    matchOf p (.smmul rd rs1 rs2) = mulhMatch := by
  simp [matchOf, h]

/-- What the decoder may answer for a word: an instruction with the operands of the word's fields, selected by its
masked word, or `Unknown(w)`. -/
def MayAnswer (p : Params) (w : Word32) : Except DecodeError Instr → Prop
  | .ok i => i.rd = rdOf w ∧ i.rs1 = rs1Of w ∧ i.rs2 = rs2Of w ∧ MaskedSelects p (w &&& encMask) i
  | .error e => e = .unknownWord w

/-- The decoder's rows in order: seven of one shape, the two words of SMMUL, and no row. -/
theorem mayAnswer_decode (p : Params) (w : Word32) : MayAnswer p w (decode p w) := by
  simp only [decode]
  iterate 7 refine iteInduction (motive := MayAnswer p w) (fun hk => ⟨rfl, rfl, rfl, .inl hk⟩) fun _ => ?_
  refine iteInduction (motive := MayAnswer p w) (fun ⟨hk, hwidth⟩ => ⟨rfl, rfl, rfl, ?_⟩) fun _ => ?_
  · cases hx : p.xlen with
    | rv64 => exact .inl (hk.trans (matchOf_smmul_rv64 hx _ _ _).symm)
    | rv32 => exact .inr ⟨hx, hwidth.resolve_left (by simp [hx]), hk, rfl⟩
  · refine iteInduction (motive := MayAnswer p w) (fun ⟨hk, hx⟩ => ⟨rfl, rfl, rfl, .inl ?_⟩) fun _ => rfl
    exact hk.trans (matchOf_smmul_rv32 hx _ _ _).symm

theorem decode_ok_inv {p : Params} {w : Word32} {i : Instr} (h : decode p w = .ok i) :
    i.rd = rdOf w ∧ i.rs1 = rs1Of w ∧ i.rs2 = rs2Of w ∧ MaskedSelects p (w &&& encMask) i := by
  have hmay := mayAnswer_decode p w
  rwa [h] at hmay

theorem decode_error_inv {p : Params} {w : Word32} {e : DecodeError} (h : decode p w = .error e) :
    e = .unknownWord w := by
  have hmay := mayAnswer_decode p w
  rwa [h] at hmay

/-- A word whose masked word selects no instruction is unknown. -/
theorem decode_unknown {p : Params} {w : Word32} (h : ∀ i, ¬ MaskedSelects p (w &&& encMask) i) :
    decode p w = .error (.unknownWord w) := by
  cases hd : decode p w with
  | error e => rw [decode_error_inv hd]
  | ok i =>
    obtain ⟨-, -, -, hsel⟩ := decode_ok_inv hd
    exact absurd hsel (h i)

/-- Settles O14, by the fields of an encoded word (`decode_encode`). -/
theorem decodeOfEncode : Obligations.DecodeOfEncode := decode_encode

/-- Settles O15: a word is the full word of its masked word and its operand fields, and the masked word is one that
selects the instruction. -/
theorem encodeOfDecode : Obligations.EncodeOfDecode := by
  intro p w i h
  obtain ⟨hrd, hrs1, hrs2, hsel⟩ := decode_ok_inv h
  have hw : w = wordOn (w &&& encMask) i.rd i.rs1 i.rs2 := by rw [hrd, hrs1, hrs2]; exact eq_wordOn w
  rcases hsel with hk | ⟨hx, haccept, hk, hi⟩
  · exact .inl (by rwa [hk] at hw)
  · exact .inr ⟨hx, haccept, by rwa [hk] at hw, hi⟩

/-- Settles O7: `Fetch` answered, so the run is not over and `nextWord` is the word, which decodes to an error. -/
theorem unknownWordIsRefused : Obligations.UnknownWordIsRefused := by
  intro s w hacc hfetch hunknown
  obtain ⟨hmark, halign, htop⟩ := hacc
  obtain ⟨-, hlt, -, -⟩ := fetchWord_some_inv s _ w hfetch
  have hword : nextWord s = .ok w := (nextWord_ok_iff s w).mpr ⟨hmark, halign, htop, Nat.ne_of_lt hlt, hfetch⟩
  cases hd : decode s.params w with
  | ok i => exact absurd hd (hunknown i)
  | error e => exact step_of_error s (.refused (.unknownWord w)) (by simp [nextInstr, hword, hd])

/-! ### The fields of `funct7` (R36) -/

/-- The masked word, field by field: `funct7 = 31:30 A U 27:26 B`, `funct3` and `opcode`. -/
theorem and_encMask_eq_append (w : Word32) :
    w &&& encMask = w.extractLsb' 30 2 ++ BitVec.ofBool (w.getLsbD 29) ++ BitVec.ofBool (w.getLsbD 28) ++
      w.extractLsb' 26 2 ++ BitVec.ofBool (w.getLsbD 25) ++ 0#10 ++ w.extractLsb' 12 3 ++ 0#5 ++
      w.extractLsb' 0 7 := by
  apply BitVec.eq_of_getLsbD_eq
  intro k hk
  simp only [BitVec.getLsbD_and, BitVec.getLsbD_append, BitVec.getLsbD_extractLsb', BitVec.getLsbD_ofBool]
  interval_cases k <;> simp [encMask]

/-- The constant fields of the eight stand under the mask. -/
theorem hasGroupFields_and_encMask (w : Word32) : hasGroupFields (w &&& encMask) ↔ hasGroupFields w := by
  have hopcode : encMask.extractLsb' 0 7 = BitVec.allOnes 7 := by decide
  have hfunct3 : encMask.extractLsb' 12 3 = BitVec.allOnes 3 := by decide
  have htop : encMask.extractLsb' 30 2 = BitVec.allOnes 2 := by decide
  have hmid : encMask.extractLsb' 26 2 = BitVec.allOnes 2 := by decide
  simp only [hasGroupFields, BitVec.extractLsb'_and, hopcode, hfunct3, htop, hmid, BitVec.and_allOnes]

/-- The match value of an instruction on RV64 has the constant fields of the eight. -/
theorem hasGroupFields_matchOf {p : Params} (henc : p.enc = defaultEnc) (hx : p.xlen = .rv64) (i : Instr) :
    hasGroupFields (matchOf p i) := by
  cases i with
  | smmul => rw [matchOf_smmul_rv64 hx, henc]; decide
  | _ => simp only [matchOf, henc]; decide

/-- A word with the constant fields has the match value of the instruction its bits `A`, `U`, `B` select. -/
theorem and_encMask_of_hasGroupFields {p : Params} (henc : p.enc = defaultEnc) (hx : p.xlen = .rv64) {w : Word32}
    (h : hasGroupFields w) (rd rs1 rs2 : Reg) : w &&& encMask =
      matchOf p (selectedBy (w.getLsbD 29) (w.getLsbD 28) (w.getLsbD 25) rd rs1 rs2) := by
  obtain ⟨hopcode, hfunct3, htop, hmid⟩ := h
  rw [and_encMask_eq_append, hopcode, hfunct3, htop, hmid]
  cases w.getLsbD 29 <;> cases w.getLsbD 28 <;> cases w.getLsbD 25 <;>
    simp [selectedBy, matchOf, henc, hx, defaultEnc]

@[simp] theorem rd_selectedBy (A U B : Bool) (rd rs1 rs2 : Reg) : (selectedBy A U B rd rs1 rs2).rd = rd := by
  cases A <;> cases U <;> cases B <;> rfl

@[simp] theorem rs1_selectedBy (A U B : Bool) (rd rs1 rs2 : Reg) : (selectedBy A U B rd rs1 rs2).rs1 = rs1 := by
  cases A <;> cases U <;> cases B <;> rfl

@[simp] theorem rs2_selectedBy (A U B : Bool) (rd rs1 rs2 : Reg) : (selectedBy A U B rd rs1 rs2).rs2 = rs2 := by
  cases A <;> cases U <;> cases B <;> rfl

theorem defaultEnc_wellFormed : defaultEnc.wellFormed = true := by decide

/-- Settles O17: with the constant fields the word has the match value of the selected instruction; on RV64 every word
that selects an instruction has them. -/
theorem functFieldsSelectTheInstruction : Obligations.FunctFieldsSelectTheInstruction := by
  intro p w henc hx
  split
  next hfields =>
    obtain ⟨-, hdistinct⟩ := Bool.and_eq_true_iff.mp defaultEnc_wellFormed
    exact decode_of_fields p w _ (henc ▸ hdistinct) (rd_selectedBy ..).symm (rs1_selectedBy ..).symm
      (rs2_selectedBy ..).symm (and_encMask_of_hasGroupFields henc hx hfields _ _ _)
  next hfields =>
    apply decode_unknown
    rintro i (hk | ⟨hrv32, -⟩)
    · exact hfields ((hasGroupFields_and_encMask w).mp (hk ▸ hasGroupFields_matchOf henc hx i))
    · rw [hx] at hrv32; cases hrv32

/-! ### The two words of SMMUL (R38) -/

theorem encode_smmul_rv32 {p : Params} (h : p.xlen = .rv32) (rd rs1 rs2 : Reg) :
    encode p (.smmul rd rs1 rs2) = wordOn mulhMatch rd rs1 rs2 := by
  rw [encode, matchOf_smmul_rv32 h]; rfl

theorem encode_smmul_rv64 {p : Params} (h : p.xlen = .rv64) (rd rs1 rs2 : Reg) :
    encode p (.smmul rd rs1 rs2) = wordOn p.enc.smmul rd rs1 rs2 := by
  rw [encode, matchOf_smmul_rv64 h]; rfl

/-- On RV64 the `mulh` word is unknown: it lacks the constant fields of the eight. -/
theorem decode_mulhWord_rv64 {p : Params} (henc : p.enc = defaultEnc) (hx : p.xlen = .rv64) (rd rs1 rs2 : Reg) :
    decode p (wordOn mulhMatch rd rs1 rs2) = .error (.unknownWord (wordOn mulhMatch rd rs1 rs2)) := by
  rw [functFieldsSelectTheInstruction p _ henc hx, if_neg]
  rw [← hasGroupFields_and_encMask, wordOn_mask _ _ _ _ (by decide)]
  decide

/-- On RV32 the OP-P word of SMMUL is no instruction's match value, so it is unknown unless it is accepted. -/
theorem decode_oppWord_rv32_refuse {p : Params} (henc : p.enc = defaultEnc) (hx : p.xlen = .rv32)
    (hrefuse : p.smmulOppOnRv32 = .refuse) (rd rs1 rs2 : Reg) :
    decode p (wordOn defaultEnc.smmul rd rs1 rs2) = .error (.unknownWord (wordOn defaultEnc.smmul rd rs1 rs2)) := by
  apply decode_unknown
  rw [wordOn_mask _ _ _ _ (by decide)]
  rintro i (hk | ⟨-, haccept, -⟩)
  · revert hk
    cases i with
    | smmul => rw [matchOf_smmul_rv32 hx]; decide
    | _ => simp only [matchOf, henc]; decide
  · rw [hrefuse] at haccept; cases haccept

theorem decode_oppWord_rv32_accept {p : Params} (henc : p.enc = defaultEnc) (haccept : p.smmulOppOnRv32 = .accept)
    (rd rs1 rs2 : Reg) : decode p (wordOn defaultEnc.smmul rd rs1 rs2) = .ok (.smmul rd rs1 rs2) := by
  have hmask : defaultEnc.smmul &&& encMask = defaultEnc.smmul := by decide
  simp only [decode, rdOf_wordOn _ _ _ _ hmask, rs1Of_wordOn _ _ _ _ hmask, rs2Of_wordOn _ _ _ _ hmask,
    wordOn_mask _ _ _ _ hmask, henc]
  simp [haccept, defaultEnc]

/-- Settles O18: the word the encoder gives `smmul` decodes to it at either width; the other word is unknown, unless it
is the OP-P word and accepted. -/
theorem smmulWordsByWidth : Obligations.SmmulWordsByWidth := by
  intro p rd rs1 rs2 henc
  have hround := decode_encode p (.smmul rd rs1 rs2) (henc ▸ defaultEnc_wellFormed)
  constructor
  · intro hx
    rw [encode_smmul_rv32 hx] at hround
    exact ⟨hround, fun h => decode_oppWord_rv32_refuse henc hx h rd rs1 rs2,
      fun h => decode_oppWord_rv32_accept henc h rd rs1 rs2⟩
  · intro hx
    rw [encode_smmul_rv64 hx, henc] at hround
    exact ⟨decode_mulhWord_rv64 henc hx rd rs1 rs2, hround⟩

/-! ### Assembler text (R40 to R42) -/

@[simp] theorem regOfName_regName (r : Reg) : regOfName (regName r) = some r := by
  revert r; decide

@[simp] theorem regOfName_abiName (r : Reg) : regOfName (abiName r) = some r := by
  revert r; decide

/-- The source's mnemonic of an instruction names it on its own operands. -/
@[simp] theorem instrOfMnemonic_sourceMnemonic (xl : Xlen) (i : Instr) :
    instrOfMnemonic xl (sourceMnemonic i) i.rd i.rs1 i.rs2 = some i := by
  cases i <;> rfl

/-- The GNU mnemonic of an instruction names it on its own operands. -/
@[simp] theorem instrOfMnemonic_gnuMnemonic (xl : Xlen) (i : Instr) :
    instrOfMnemonic xl (gnuMnemonic i) i.rd i.rs1 i.rs2 = some i := by
  cases i <;> rfl

/-- Settles O20: the three register names are read back, then the mnemonic. -/
theorem assemblerReadsBothSpellings : Obligations.AssemblerReadsBothSpellings := by
  intro xl i
  constructor
  · simp [assemble, sourceLine]
  · simp [assemble, gnuLine]

/-- A line with the names `x0` .. `x31` whose mnemonic names `smmul` assembles on RV32 to the `mulh` word. -/
theorem assembleWord_of_smmul_rv32 {p : Params} (hx : p.xlen = .rv32) {m : String} {rd rs1 rs2 : Reg}
    (h : instrOfMnemonic p.xlen m rd rs1 rs2 = some (.smmul rd rs1 rs2)) :
    assembleWord p ⟨m, regName rd, regName rs1, regName rs2⟩ = some (wordOn mulhMatch rd rs1 rs2) := by
  simp [assembleWord, assemble, h, encode_smmul_rv32 hx]

/-- Settles O21: on RV32 both mnemonics name `smmul`. -/
theorem mulhIsAnAliasOnRv32 : Obligations.MulhIsAnAliasOnRv32 := by
  intro p rd rs1 rs2 hx
  have hmulh : instrOfMnemonic p.xlen "mulh" rd rs1 rs2 = some (.smmul rd rs1 rs2) := by simp [instrOfMnemonic, hx]
  have hsmmul : instrOfMnemonic p.xlen "smmul" rd rs1 rs2 = some (.smmul rd rs1 rs2) :=
    instrOfMnemonic_gnuMnemonic p.xlen (.smmul rd rs1 rs2)
  exact ⟨assembleWord_of_smmul_rv32 hx hmulh, assembleWord_of_smmul_rv32 hx hsmmul⟩

/-! ### The intrinsics (R45) -/

/-- Every instruction retires what its intrinsic returns for the values of `Rd`, `Rs1` and `Rs2`. -/
theorem exec_eq_intrinsicOf (i : Instr) (s : State) : exec i s =
    .next (retire s i.rd (intrinsicOf i s.params.xlen (readX s i.rd) (readX s i.rs1) (readX s i.rs2))) := by
  cases i <;> rfl

/-- An intrinsic returns a value in its width. -/
theorem truncX_intrinsicOf (i : Instr) (xl : Xlen) (t a b : XWord) :
    truncX xl (intrinsicOf i xl t a b).1 = (intrinsicOf i xl t a b).1 := by
  cases i <;> simp [intrinsicOf, rvKmmac, rvKmmacU, rvKmmsb, rvKmmsbU, rvKwmmul, rvKwmmulU, rvSmmul, rvSmmulU]

/-- Settles O54: the instruction retires what the intrinsic returns, and its destination is not `x0`. -/
theorem intrinsicsReturnTheResult : Obligations.IntrinsicsReturnTheResult := by
  intro i s hrd _ _ _ _ _
  refine ⟨_, exec_eq_intrinsicOf i s, ?_, retire_ov _ _ _⟩
  rw [readX_retire, if_pos ⟨hrd, rfl⟩, truncX_intrinsicOf]

end Sys2Proof.Machine
end

section
/-! PROOFS. The lane arithmetic (40_lane_arithmetic.md R46 to R54): the product, its most significant word, plain and
rounded, and saturation, each as an integer. A slice of a word is the word of a quotient (`extractLsb'_eq_ofInt`), so
each claim about `hi` and `hiu` is one about `product a b` divided by `2^32`. -/

namespace Sys2Proof.Machine

/-! ### Words of integers -/

/-- A cut of the word of an integer is the narrower word of it. -/
theorem setWidth_ofInt {w n : Nat} (h : n ≤ w) (z : Int) : (BitVec.ofInt w z).setWidth n = BitVec.ofInt n z := by
  have hdvd : 2 ^ n ∣ 2 ^ w := pow_dvd_pow 2 h
  apply BitVec.eq_of_toInt_eq
  rw [BitVec.toInt_setWidth, ← Int.bmod_bmod_of_dvd hdvd, ← BitVec.toInt_eq_toNat_bmod, BitVec.toInt_ofInt,
    BitVec.toInt_ofInt, Int.bmod_bmod_of_dvd hdvd]

/-- A slice of a word is the word of its signed value's quotient. -/
theorem extractLsb'_eq_ofInt {w lo n : Nat} (m : BitVec w) (h : lo + n ≤ w) :
    m.extractLsb' lo n = BitVec.ofInt n (m.toInt / 2 ^ lo) := by
  have hquot : BitVec.ofInt w (m.toInt / 2 ^ lo) = m.sshiftRight lo := by
    rw [BitVec.sshiftRight, Int.shiftRight_eq_div_pow]
    norm_cast
  rw [← setWidth_ofInt (show n ≤ w by omega), hquot]
  apply BitVec.eq_of_getLsbD_eq
  intro i hi
  rw [BitVec.getLsbD_extractLsb', BitVec.getLsbD_setWidth, BitVec.getLsbD_sshiftRight, if_pos (by omega)]
  simp [Nat.not_le.mpr (show i < w by omega)]

/-- Bit `k` of a word is the parity of its signed value's quotient. -/
theorem getLsbD_iff_toInt {w k : Nat} (m : BitVec w) (h : k < w) : m.getLsbD k = true ↔ m.toInt / 2 ^ k % 2 = 1 := by
  have hslice : BitVec.ofBool (m.getLsbD k) = BitVec.ofInt 1 (m.toInt / 2 ^ k) := by
    rw [← extractLsb'_eq_ofInt m h]
    exact BitVec.eq_of_getLsbD_eq fun i hi => by simp [Nat.lt_one_iff.mp hi]
  have hnat := congrArg (fun b => (BitVec.toNat b : Int)) hslice
  simp only [BitVec.toNat_ofInt, BitVec.toNat_ofBool] at hnat
  cases hb : m.getLsbD k <;> simp [hb] at hnat ⊢ <;> omega

/-- The value of an element is in the Q31 range. -/
theorem elem_toInt_bounds (a : Elem) : -2147483648 ≤ a.toInt ∧ a.toInt ≤ 2147483647 :=
  ⟨a.le_toInt, Int.le_of_lt_add_one a.toInt_lt⟩

/-- An integer in the Q31 range is the value of its word. -/
theorem elem_toInt_ofInt {r : Int} (h : -2147483648 ≤ r) (h' : r ≤ 2147483647) : (BitVec.ofInt 32 r).toInt = r :=
  BitVec.toInt_ofInt_eq_self (by decide) h (Int.lt_add_one_of_le h')

/-- The element whose value is given. -/
theorem elem_toInt_eq_iff {a : Elem} {r : Int} (h : -2147483648 ≤ r) (h' : r ≤ 2147483647) :
    a.toInt = r ↔ a = BitVec.ofInt 32 r := by
  rw [← BitVec.toInt_inj, elem_toInt_ofInt h h']

theorem elem_toInt_eq_min_iff (a : Elem) : a.toInt = -2147483648 ↔ a = 0x80000000 :=
  elem_toInt_eq_iff (by decide) (by decide)

theorem elem_toInt_eq_min_succ_iff (a : Elem) : a.toInt = -2147483647 ↔ a = 0x80000001 :=
  elem_toInt_eq_iff (by decide) (by decide)

theorem elem_toInt_eq_max_iff (a : Elem) : a.toInt = 2147483647 ↔ a = 0x7FFFFFFF :=
  elem_toInt_eq_iff (by decide) (by decide)

/-! ### The product (R46) -/

theorem product_comm (a b : Elem) : product a b = product b a := Int.mul_comm _ _

theorem mul64_comm (a b : Elem) : mul64 a b = mul64 b a := congrArg (BitVec.ofInt 64) (product_comm a b)

theorem hi_comm (a b : Elem) : hi a b = hi b a := congrArg (BitVec.extractLsb' 32 32) (mul64_comm a b)

theorem hiu_comm (a b : Elem) : hiu a b = hiu b a :=
  congrArg (fun m => (round33 m).extractLsb' 1 32) (mul64_comm a b)

/-- A factor of absolute value at most `m` bounds the product: `2 * (m * 2^31 - a * b)` is the sum of
`(m - a) * (2^31 + b)` and `(m + a) * (2^31 - b)`. -/
theorem product_le_mul {a b : Elem} {m : Int} (h : -m ≤ a.toInt) (h' : a.toInt ≤ m) :
    product a b ≤ m * 2147483648 := by
  obtain ⟨hb, hb'⟩ := elem_toInt_bounds b
  have hleft : 0 ≤ (m - a.toInt) * (2147483648 + b.toInt) := Int.mul_nonneg (by omega) (by omega)
  have hright : 0 ≤ (m + a.toInt) * (2147483648 - b.toInt) := Int.mul_nonneg (by omega) (by omega)
  rw [product]
  linarith

theorem product_le (a b : Elem) : product a b ≤ 2 ^ 62 := by
  obtain ⟨ha, ha'⟩ := elem_toInt_bounds a
  exact product_le_mul (m := 2147483648) ha (by omega)

/-- A factor of the greatest product is the minimum: any other one is at most `2^31 - 1` in absolute value. -/
theorem eq_min_of_product_eq_max {a b : Elem} (h : product a b = 2 ^ 62) : a = 0x80000000 := by
  obtain ⟨ha, ha'⟩ := elem_toInt_bounds a
  rw [← elem_toInt_eq_min_iff]
  by_contra hne
  have hle : product a b ≤ 2147483647 * 2147483648 := product_le_mul (by omega) ha'
  omega

/-- A product at most `-(2^31 - 1)^2`, with the second factor positive, has the maximum as that factor: from
`2^31 - 2` down the product is at least `-2^31 * (2^31 - 2)`. -/
theorem factors_of_product_le_of_nonneg {a b : Elem} (hb : 0 ≤ b.toInt) (h : product a b ≤ -(2147483647 * 2147483647)) :
    a.toInt ≤ -2147483647 ∧ b = 0x7FFFFFFF := by
  obtain ⟨ha, -⟩ := elem_toInt_bounds a
  obtain ⟨-, hb'⟩ := elem_toInt_bounds b
  have hmul : -2147483648 * b.toInt ≤ product a b := Int.mul_le_mul_of_nonneg_right ha hb
  have hmax : b.toInt = 2147483647 := by omega
  rw [product, hmax] at h
  exact ⟨by omega, (elem_toInt_eq_max_iff b).mp hmax⟩

/-- The factors of a product at most `-(2^31 - 1)^2`. -/
theorem factors_of_product_le {a b : Elem} (h : product a b ≤ -(2147483647 * 2147483647)) :
    a.toInt ≤ -2147483647 ∧ b = 0x7FFFFFFF ∨ a = 0x7FFFFFFF ∧ b.toInt ≤ -2147483647 := by
  rcases Int.le_total 0 b.toInt with hb | hb
  · exact .inl (factors_of_product_le_of_nonneg hb h)
  · have ha : 0 ≤ a.toInt := by
      by_contra ha
      have hnonneg : 0 ≤ product a b := Int.mul_nonneg_of_nonpos_of_nonpos (by omega) hb
      omega
    rw [product_comm] at h
    exact .inr (factors_of_product_le_of_nonneg ha h).symm

theorem product_max_right (a : Elem) : product a 0x7FFFFFFF = a.toInt * 2147483647 := rfl

theorem product_max_left (b : Elem) : product 0x7FFFFFFF b = 2147483647 * b.toInt := rfl

theorem le_product (a b : Elem) : -(2 ^ 62 - 2 ^ 31) ≤ product a b := by
  obtain ⟨ha, -⟩ := elem_toInt_bounds a
  obtain ⟨hb, -⟩ := elem_toInt_bounds b
  by_contra h
  rcases factors_of_product_le (a := a) (b := b) (by omega) with ⟨-, rfl⟩ | ⟨rfl, -⟩
  · rw [product_max_right] at h; omega
  · rw [product_max_left] at h; omega

theorem product_eq_min_iff (a b : Elem) : product a b = -(2 ^ 62 - 2 ^ 31) ↔
    a = 0x80000000 ∧ b = 0x7FFFFFFF ∨ a = 0x7FFFFFFF ∧ b = 0x80000000 := by
  constructor
  · intro h
    rcases factors_of_product_le (a := a) (b := b) (by omega) with ⟨-, rfl⟩ | ⟨rfl, -⟩
    · rw [product_max_right] at h
      exact .inl ⟨(elem_toInt_eq_min_iff a).mp (by omega), rfl⟩
    · rw [product_max_left] at h
      exact .inr ⟨rfl, (elem_toInt_eq_min_iff b).mp (by omega)⟩
  · rintro (⟨rfl, rfl⟩ | ⟨rfl, rfl⟩) <;> decide

theorem product_eq_max_iff (a b : Elem) : product a b = 2 ^ 62 ↔ a = 0x80000000 ∧ b = 0x80000000 := by
  constructor
  · exact fun h => ⟨eq_min_of_product_eq_max h, eq_min_of_product_eq_max (product_comm a b ▸ h)⟩
  · rintro ⟨rfl, rfl⟩; decide

/-- The product fits in 64 bits. -/
theorem toInt_mul64 (a b : Elem) : (mul64 a b).toInt = product a b := by
  have hlo := le_product a b
  have hhi := product_le a b
  exact BitVec.toInt_ofInt_eq_self (n := product a b) (by decide) (by omega) (by omega)

/-- Settles O22: the bounds of the product, the factors that reach them, and `toInt_mul64`. -/
theorem productIsExact : Obligations.ProductIsExact := fun a b =>
  ⟨toInt_mul64 a b, le_product a b, product_le a b, product_eq_max_iff a b, product_eq_min_iff a b, mul64_comm a b⟩

/-! ### The most significant word (R48 to R50) -/

theorem hi_eq_ofInt (a b : Elem) : hi a b = BitVec.ofInt 32 (product a b / 2 ^ 32) := by
  rw [hi, extractLsb'_eq_ofInt _ (by decide), toInt_mul64]

theorem hi_toInt (a b : Elem) : (hi a b).toInt = product a b / 2 ^ 32 := by
  have hlo := le_product a b
  have hhi := product_le a b
  rw [hi_eq_ofInt]
  exact elem_toInt_ofInt (by omega) (by omega)

/-- The sum in 33 bits loses no carry. -/
theorem toInt_round33_mul64 (a b : Elem) : (round33 (mul64 a b)).toInt = product a b / 2 ^ 31 + 1 := by
  have hlo := le_product a b
  have hhi := product_le a b
  have hround : round33 (mul64 a b) = BitVec.ofInt 33 (product a b / 2 ^ 31 + 1) := by
    rw [round33, extractLsb'_eq_ofInt _ (by decide), toInt_mul64, BitVec.ofInt_add]
    rfl
  rw [hround]
  exact BitVec.toInt_ofInt_eq_self (by decide) (by omega) (by omega)

theorem hiu_eq_ofInt (a b : Elem) : hiu a b = BitVec.ofInt 32 ((product a b + 2 ^ 31) / 2 ^ 32) := by
  rw [hiu, extractLsb'_eq_ofInt _ (by decide), toInt_round33_mul64]
  exact congrArg (BitVec.ofInt 32) (by omega)

theorem hiu_toInt (a b : Elem) : (hiu a b).toInt = (product a b + 2 ^ 31) / 2 ^ 32 := by
  have hlo := le_product a b
  have hhi := product_le a b
  rw [hiu_eq_ofInt]
  exact elem_toInt_ofInt (by omega) (by omega)

/-- Settles O23: bits 63:32 are the slice that divides the exact product by `2^32`. -/
theorem highWordIsFloor : Obligations.HighWordIsFloor := hi_toInt

/-- Settles O24: adding half a unit carries into the high word exactly when bit 31 of the product is 1. -/
theorem roundedHighWordIsNearest : Obligations.RoundedHighWordIsNearest := by
  intro a b
  have hbit := getLsbD_iff_toInt (mul64 a b) (k := 31) (by decide)
  rw [toInt_mul64] at hbit
  have hcarry : (product a b + 2 ^ 31) / 2 ^ 32 = product a b / 2 ^ 32 + if (mul64 a b).getLsbD 31 then 1 else 0 := by
    split
    next h => rw [hbit] at h; omega
    next h => rw [hbit] at h; omega
  exact ⟨hiu_toInt a b, by rw [hiu_eq_ofInt, hi_toInt, hcarry]⟩

/-- The two least elements. -/
theorem eq_min_or_of_toInt_le {a : Elem} (h : a.toInt ≤ -2147483647) : a = 0x80000000 ∨ a = 0x80000001 := by
  obtain ⟨hlo, -⟩ := elem_toInt_bounds a
  rw [← elem_toInt_eq_min_iff, ← elem_toInt_eq_min_succ_iff]
  omega

/-- The high word is at its minimum for the products below `-2^62 + 2^32`. -/
theorem hi_toInt_eq_min_iff (a b : Elem) : (hi a b).toInt = -(2 ^ 30) ↔
    (a = 0x80000000 ∨ a = 0x80000001) ∧ b = 0x7FFFFFFF ∨ a = 0x7FFFFFFF ∧ (b = 0x80000000 ∨ b = 0x80000001) := by
  constructor
  · intro h
    rw [hi_toInt] at h
    rcases factors_of_product_le (a := a) (b := b) (by omega) with ⟨ha, hb⟩ | ⟨ha, hb⟩
    · exact .inl ⟨eq_min_or_of_toInt_le ha, hb⟩
    · exact .inr ⟨ha, eq_min_or_of_toInt_le hb⟩
  · rintro (⟨rfl | rfl, rfl⟩ | ⟨rfl, rfl | rfl⟩) <;> decide

/-- Settles O25: the quotients of the bounds of the product. -/
theorem highWordRanges : Obligations.HighWordRanges := by
  intro a b
  have hlo := le_product a b
  have hhi := product_le a b
  have hmax : (hi a b).toInt = 2 ^ 30 ↔ product a b = 2 ^ 62 := by rw [hi_toInt]; omega
  refine ⟨?_, ?_, hmax.trans (product_eq_max_iff a b), hi_toInt_eq_min_iff a b, ?_, ?_⟩
  · rw [hi_toInt]; omega
  · rw [hi_toInt]; omega
  · rw [hiu_toInt]; omega
  · rw [hiu_toInt]; omega

/-- Refutes O26: `0x80000001` times `0x7FFFFFFF` has the high word `-2^30` too (log 26). -/
theorem not_highWordMinimumAtOnePairOnly : ¬ Obligations.HighWordMinimumAtOnePairOnly := by
  intro h
  exact absurd (h 0x80000001 0x7FFFFFFF (by decide)) (by decide)

/-! ### Saturation (R51) -/

theorem sat32_of_gt {r : Int} (h : 2147483647 < r) : sat32 r = (0x7FFFFFFF, true) := if_pos h

theorem sat32_of_lt {r : Int} (h : r < -2147483648) : sat32 r = (0x80000000, true) := by
  rw [sat32, if_neg (by omega), if_pos (by omega)]
  rfl

/-- An integer inside the range, bounds included, is kept and not flagged. -/
theorem sat32_of_inside {r : Int} (h : -2147483648 ≤ r) (h' : r ≤ 2147483647) :
    sat32 r = (BitVec.ofInt 32 r, false) := by
  rw [sat32, if_neg (by omega), if_neg (by omega)]

theorem clampQ31_of_inside {r : Int} (h : -2147483648 ≤ r) (h' : r ≤ 2147483647) : clampQ31 r = r := by
  rw [clampQ31]
  omega

/-- Settles O27: above the range, below it, and inside, where the word holds the integer. -/
theorem sat32Saturates : Obligations.Sat32Saturates := by
  intro r
  rcases lt_or_ge 2147483647 r with hgt | hle
  · have hclamp : clampQ31 r = 2147483647 := by rw [clampQ31]; omega
    rw [sat32_of_gt hgt, hclamp]
    exact ⟨rfl, fun _ => .inr hgt, fun _ => rfl⟩
  · rcases lt_or_ge r (-2147483648) with hlt | hge
    · have hclamp : clampQ31 r = -2147483648 := by rw [clampQ31]; omega
      rw [sat32_of_lt hlt, hclamp]
      exact ⟨rfl, fun _ => .inl hlt, fun _ => rfl⟩
    · rw [sat32_of_inside hge hle, clampQ31_of_inside hge hle]
      exact ⟨elem_toInt_ofInt hge hle, nofun, fun h => absurd h (by omega)⟩

/-! ### Special multiplicands and signs (R54) -/

theorem hi_eq_of_quotient {a b c : Elem} (h : product a b / 2 ^ 32 = c.toInt) : hi a b = c :=
  BitVec.eq_of_toInt_eq ((hi_toInt a b).trans h)

theorem hiu_eq_of_quotient {a b c : Elem} (h : (product a b + 2 ^ 31) / 2 ^ 32 = c.toInt) : hiu a b = c :=
  BitVec.eq_of_toInt_eq ((hiu_toInt a b).trans h)

theorem product_zero (v : Elem) : product 0 v = 0 := Int.zero_mul _

theorem product_one (v : Elem) : product 1 v = v.toInt := Int.one_mul _

theorem product_neg_one (v : Elem) : product 0xFFFFFFFF v = -v.toInt := Int.neg_one_mul _

theorem hi_zero (v : Elem) : hi 0 v = 0 :=
  hi_eq_of_quotient (show product 0 v / 2 ^ 32 = 0 by rw [product_zero]; rfl)

theorem hiu_zero (v : Elem) : hiu 0 v = 0 :=
  hiu_eq_of_quotient (show (product 0 v + 2 ^ 31) / 2 ^ 32 = 0 by rw [product_zero]; rfl)

theorem hi_one (v : Elem) : hi 1 v = if 0 ≤ v.toInt then 0 else 0xFFFFFFFF := by
  obtain ⟨hlo, hhi⟩ := elem_toInt_bounds v
  split
  · exact hi_eq_of_quotient (show product 1 v / 2 ^ 32 = 0 by rw [product_one]; omega)
  · exact hi_eq_of_quotient (show product 1 v / 2 ^ 32 = -1 by rw [product_one]; omega)

theorem hiu_one (v : Elem) : hiu 1 v = 0 := by
  obtain ⟨hlo, hhi⟩ := elem_toInt_bounds v
  exact hiu_eq_of_quotient (show (product 1 v + 2 ^ 31) / 2 ^ 32 = 0 by rw [product_one]; omega)

theorem hi_neg_one (v : Elem) : hi 0xFFFFFFFF v = if 0 < v.toInt then 0xFFFFFFFF else 0 := by
  obtain ⟨hlo, hhi⟩ := elem_toInt_bounds v
  split
  · exact hi_eq_of_quotient (show product 0xFFFFFFFF v / 2 ^ 32 = -1 by rw [product_neg_one]; omega)
  · exact hi_eq_of_quotient (show product 0xFFFFFFFF v / 2 ^ 32 = 0 by rw [product_neg_one]; omega)

/-- Half a unit carries only from `2^31`, the negation of the minimum. -/
theorem hiu_neg_one (v : Elem) : hiu 0xFFFFFFFF v = if v = 0x80000000 then 1 else 0 := by
  obtain ⟨hlo, hhi⟩ := elem_toInt_bounds v
  split
  next h =>
    have hmin := (elem_toInt_eq_min_iff v).mpr h
    exact hiu_eq_of_quotient (show (product 0xFFFFFFFF v + 2 ^ 31) / 2 ^ 32 = 1 by rw [product_neg_one]; omega)
  next h =>
    have hne := mt (elem_toInt_eq_min_iff v).mp h
    exact hiu_eq_of_quotient (show (product 0xFFFFFFFF v + 2 ^ 31) / 2 ^ 32 = 0 by rw [product_neg_one]; omega)

/-- Settles O28: the product with 0, 1 or -1 is `0`, `v` or `-v`; the extreme values are computed. -/
theorem highWordsOfSpecialMultiplicands : Obligations.HighWordsOfSpecialMultiplicands := by
  refine ⟨fun v => ⟨⟨hi_zero v, hiu_zero v, ?_, ?_⟩, hi_one v, hiu_one v, hi_neg_one v, hiu_neg_one v⟩, ?_⟩
  · rw [hi_comm, hi_zero]
  · rw [hiu_comm, hiu_zero]
  · decide

/-- A product of two positive elements is at most the square of the maximum. -/
theorem product_of_pos_of_pos {a b : Elem} (ha : 0 < a.toInt) (hb : 0 < b.toInt) :
    0 < product a b ∧ product a b ≤ 2147483647 * 2147483647 := by
  obtain ⟨-, ha'⟩ := elem_toInt_bounds a
  obtain ⟨-, hb'⟩ := elem_toInt_bounds b
  exact ⟨Int.mul_pos ha hb, Int.mul_le_mul ha' hb' hb.le (by decide)⟩

/-- Settles O29: the sign of the product, and its bounds, divided by `2^32`. -/
theorem highWordsBySign : Obligations.HighWordsBySign := by
  intro a b
  have hlo := le_product a b
  have hhi := product_le a b
  simp only [hi_toInt, hiu_toInt]
  refine ⟨fun ha hb => ?_, fun ha hb => ?_, fun ha hb => ?_⟩
  · obtain ⟨hpos, hle⟩ := product_of_pos_of_pos ha hb
    omega
  · have hneg : product a b < 0 := Int.mul_neg_of_pos_of_neg ha hb
    exact ⟨by omega, by omega, fun _ => hi_eq_of_quotient (show product a b / 2 ^ 32 = -1 by omega), by omega, by omega,
      fun _ => hiu_eq_of_quotient (show (product a b + 2 ^ 31) / 2 ^ 32 = 0 by omega)⟩
  · have hpos : 0 < product a b := Int.mul_pos_of_neg_of_neg ha hb
    omega

end Sys2Proof.Machine
end

section
/-! PROOFS. The rules about the group (40_lane_arithmetic.md R46, R47, R53, R55). Each instruction has one function of
the elements of `Rd`, `Rs1` and `Rs2` (`elemMeaning`): `exec` retires its map over elements, and the source's Operations
assign its value to one element after another (`pcElement_eq`), where no assignment changes what another one reads
(`meaningAt_pcElement_of_ne`). -/

namespace Sys2Proof.Machine

/-! ### The function of each instruction on elements -/

/-- What an instruction makes of one element of `Rd`, `Rs1` and `Rs2`: the new element of `Rd`, and the flag. -/
def elemMeaning : Instr → Elem → Elem → Elem → Elem × Bool
  | .kmmac .., d, a, b => kmmacElem d a b
  | .kmmacU .., d, a, b => kmmacUElem d a b
  | .kmmsb .., d, a, b => kmmsbElem d a b
  | .kmmsbU .., d, a, b => kmmsbUElem d a b
  | .kwmmul .., _, a, b => kwmmulElem a b
  | .kwmmulU .., _, a, b => kwmmulUElem a b
  | .smmul .., _, a, b => (hi a b, false)
  | .smmulU .., _, a, b => (hiu a b, false)

/-- The function of an instruction on the elements `x` of its registers in a state. -/
def meaningAt (i : Instr) (s : State) (x : Nat) : Elem × Bool :=
  elemMeaning i (elem (readX s i.rd) x) (elem (readX s i.rs1) x) (elem (readX s i.rs2) x)

/-- Every instruction retires the map of its function over the elements (R47). -/
theorem exec_eq_elemMeaning (i : Instr) (s : State) : exec i s =
    .next (retire s i.rd
      (laneMap3 s.params.xlen (elemMeaning i) (readX s i.rd) (readX s i.rs1) (readX s i.rs2))) := by
  cases i with
  | smmul rd rs1 rs2 => rw [exec_smmul, laneValues2_eq_laneMap3 _ _ (readX s rd)]; rfl
  | smmulU rd rs1 rs2 => rw [exec_smmulU, laneValues2_eq_laneMap3 _ _ (readX s rd)]; rfl
  | _ => rfl

/-! ### The sources are symmetric (R46) -/

theorem bothMin_comm (a b : Elem) : bothMin a b = bothMin b a := Bool.and_comm _ _

theorem elemMeaning_comm (i : Instr) (d a b : Elem) : elemMeaning i d a b = elemMeaning i d b a := by
  cases i with
  | kmmac => simp only [elemMeaning, kmmacElem, hi_comm a b]
  | kmmacU => simp only [elemMeaning, kmmacUElem, hiu_comm a b]
  | kmmsb => simp only [elemMeaning, kmmsbElem, hi_comm a b]
  | kmmsbU => simp only [elemMeaning, kmmsbUElem, hiu_comm a b]
  | kwmmul => simp only [elemMeaning, kwmmulElem, bothMin_comm a b, mul64_comm a b]
  | kwmmulU => simp only [elemMeaning, kwmmulUElem, bothMin_comm a b, mul64_comm a b]
  | smmul => simp only [elemMeaning, hi_comm a b]
  | smmulU => simp only [elemMeaning, hiu_comm a b]

@[simp] theorem rd_swapSources (i : Instr) : i.swapSources.rd = i.rd := by cases i <;> rfl

@[simp] theorem rs1_swapSources (i : Instr) : i.swapSources.rs1 = i.rs2 := by cases i <;> rfl

@[simp] theorem rs2_swapSources (i : Instr) : i.swapSources.rs2 = i.rs1 := by cases i <;> rfl

@[simp] theorem elemMeaning_swapSources (i : Instr) : elemMeaning i.swapSources = elemMeaning i := by
  cases i <;> rfl

/-- Settles O42: the same function of the elements, which is symmetric in the sources. -/
theorem sourcesAreSymmetric : Obligations.SourcesAreSymmetric := by
  intro i s
  simp only [exec_eq_elemMeaning, rd_swapSources, rs1_swapSources, rs2_swapSources, elemMeaning_swapSources]
  rw [laneMap3_congr _ _ _ _ _ _ _ _ _ fun e _ => elemMeaning_comm i _ _ _]

/-! ### Elements are independent (R47) -/

/-- An element of the destination after an instruction. -/
theorem elem_readX_of_exec {i : Instr} {s t : State} {e : Nat} (hrd : i.rd ≠ 0) (he : e < s.params.xlen.nelem)
    (h : exec i s = .next t) : elem (readX t i.rd) e = (meaningAt i s e).1 := by
  rw [exec_eq_elemMeaning] at h
  cases h
  rw [readX_retire, if_pos ⟨hrd, rfl⟩, truncX_laneMap3, elem_laneMap3 _ _ _ _ _ e he, meaningAt]

/-- Settles O46: an element of the result is the function of the same elements of the operands. -/
theorem elementsAreIndependent : Obligations.ElementsAreIndependent := by
  intro i s s' t t' e hxlen he ht ht' hrs1 hrs2 hd
  by_cases hrd : i.rd = 0
  · rw [hrd, readX_zero, readX_zero]
  · rw [elem_readX_of_exec hrd he ht, elem_readX_of_exec hrd (hxlen ▸ he) ht', meaningAt, meaningAt, hrs1, hrs2, hd]

/-! ### The destination `x0` (R55) -/

/-- The end of an instruction to `x0` keeps its flag effect (log 14). -/
theorem retire_x0 (s : State) (r : XWord × Bool) : retire s 0 r = advancePc (setOvIf s r.2) := by
  simp [retire]

/-- From the accumulator 0 neither adding nor subtracting an integer of at most `2^30` saturates. -/
theorem sat32_zero_flag {q : Int} (h : -(2 ^ 30) ≤ q) (h' : q ≤ 2 ^ 30) :
    (sat32 ((0 : Elem).toInt + q)).2 = false ∧ (sat32 ((0 : Elem).toInt - q)).2 = false := by
  have hzero : (0 : Elem).toInt = 0 := rfl
  rw [hzero, sat32_of_inside (by omega) (by omega), sat32_of_inside (by omega) (by omega)]
  exact ⟨rfl, rfl⟩

/-- With the accumulator 0 the six forms other than KWMMUL and KWMMUL.u set no flag, by the ranges of R50. -/
theorem elemMeaning_zero_flag (i : Instr) (h : i.readsRd = true ∨ i.canSetOv = false) (a b : Elem) :
    (elemMeaning i 0 a b).2 = false := by
  obtain ⟨hlo, hhi, -, -, hloU, hhiU⟩ := highWordRanges a b
  obtain ⟨hadd, hsub⟩ := sat32_zero_flag hlo hhi
  obtain ⟨haddU, hsubU⟩ := sat32_zero_flag (by omega) hhiU
  cases i with
  | kmmac => exact hadd
  | kmmacU => exact haddU
  | kmmsb => exact hsub
  | kmmsbU => exact hsubU
  | kwmmul => simp [Instr.readsRd, Instr.canSetOv] at h
  | kwmmulU => simp [Instr.readsRd, Instr.canSetOv] at h
  | smmul => rfl
  | smmulU => rfl

theorem exec_x0 (i : Instr) (s : State) (hrd : i.rd = 0) (h : i.readsRd = true ∨ i.canSetOv = false) :
    exec i s = .next (advancePc s) := by
  have hflag : (laneMap3 s.params.xlen (elemMeaning i) (readX s i.rd) (readX s i.rs1) (readX s i.rs2)).2 = false := by
    rw [Bool.eq_false_iff, ne_eq, laneMap3_flag]
    rintro ⟨e, -, he⟩
    have hacc : elem (readX s i.rd) e = 0 := by rw [hrd, readX_zero]; exact elem_zero e
    rw [hacc, elemMeaning_zero_flag i h] at he
    cases he
  rw [exec_eq_elemMeaning, hrd, retire_x0, ← hrd, hflag, setOvIf_false]

/-- Settles O43: with the accumulator 0 no element's flag is set. -/
theorem zeroDestinationOnlyAdvancesPc : Obligations.ZeroDestinationOnlyAdvancesPc := fun _ _ s =>
  ⟨exec_x0 _ s rfl (.inl rfl), exec_x0 _ s rfl (.inl rfl), exec_x0 _ s rfl (.inl rfl), exec_x0 _ s rfl (.inl rfl),
    exec_x0 _ s rfl (.inr rfl), exec_x0 _ s rfl (.inr rfl)⟩

theorem bothMin_iff (a b : Elem) : bothMin a b = true ↔ a = 0x80000000 ∧ b = 0x80000000 := by
  simp [bothMin]

theorem kwmmulElem_flag (a b : Elem) : (kwmmulElem a b).2 = bothMin a b := by
  unfold kwmmulElem
  cases bothMin a b <;> rfl

theorem kwmmulUElem_flag (a b : Elem) : (kwmmulUElem a b).2 = bothMin a b := by
  unfold kwmmulUElem
  cases bothMin a b <;> rfl

/-- Settles O44: the result is discarded and the flag kept, which is the operand test in both forms. -/
theorem zeroDestinationKeepsFlagEffect : Obligations.ZeroDestinationKeepsFlagEffect := by
  intro i rs1 rs2 s hform
  obtain ⟨f, hexec, hflag⟩ : ∃ f : Elem → Elem → Elem × Bool,
      exec i s = .next (retire s 0 (laneMap2 s.params.xlen f (readX s rs1) (readX s rs2))) ∧
        ∀ a b, (f a b).2 = bothMin a b := by
    rcases hform with rfl | rfl
    · exact ⟨kwmmulElem, exec_kwmmul 0 rs1 rs2 s, kwmmulElem_flag⟩
    · exact ⟨kwmmulUElem, exec_kwmmulU 0 rs1 rs2 s, kwmmulUElem_flag⟩
  refine ⟨_, hexec, fun j => by simp [readX_retire], ?_, readPc_retire _ _ _⟩
  rw [ovSetIf, retire_ov, Bool.or_eq_true, laneMap2_flag]
  simp only [hflag, bothMin_iff]

/-! ### The words of the source's Operations (R53) -/

/-- The product of the Operations is the exact product (R46). -/
theorem pcMres_eq_mul64 (s : State) (rs1 rs2 : Reg) (x : Nat) :
    pcMres s rs1 rs2 x = mul64 (elem (readX s rs1) x) (elem (readX s rs2) x) :=
  (BitVec.ofInt_mul _ _).symm

theorem signExtend_add_signExtend (a b : Elem) :
    a.signExtend 34 + b.signExtend 34 = BitVec.ofInt 34 (a.toInt + b.toInt) :=
  (BitVec.ofInt_add _ _).symm

theorem signExtend_sub_signExtend (a b : Elem) :
    a.signExtend 34 - b.signExtend 34 = BitVec.ofInt 34 (a.toInt - b.toInt) := by
  rw [BitVec.sub_eq_add_neg, Int.sub_eq_add_neg, BitVec.ofInt_add, BitVec.ofInt_neg]
  rfl

theorem assignElem_setOv (s : State) (b : Bool) (rd : Reg) (x : Nat) (e : Elem) :
    assignElem (setOv s b) rd x e = setOv (assignElem s rd x e) b :=
  writeX_setOv s b rd _

/-- The saturation of the Operations, on the 34-bit word of an integer, is `sat32` (R51). -/
theorem pcSaturate_ofInt (s : State) (rd : Reg) (x : Nat) {r : Int} (h : -(2 ^ 33) ≤ r) (h' : r < 2 ^ 33) :
    pcSaturate s rd x (BitVec.ofInt 34 r) = setOvIf (assignElem s rd x (sat32 r).1) (sat32 r).2 := by
  have hr : (BitVec.ofInt 34 r).toInt = r := BitVec.toInt_ofInt_eq_self (by decide) h h'
  have hmax : (2147483647 : BitVec 34).toInt = 2147483647 := by decide
  have hmin : (-2147483648 : BitVec 34).toInt = -2147483648 := by decide
  simp only [pcSaturate, BitVec.slt_iff_toInt_lt, hr, hmax, hmin]
  split
  next hgt => rw [sat32_of_gt hgt, assignElem_setOv]; rfl
  next hle =>
    split
    next hlt => rw [sat32_of_lt hlt, assignElem_setOv]; rfl
    next hge => rw [sat32_of_inside (by omega) (by omega), setWidth_ofInt (by decide)]; rfl

/-- 34 bits hold the sum and the difference of two elements. -/
theorem pcSaturate_ofInt_of_elems (s : State) (rd : Reg) (x : Nat) {r : Int} {a b : Elem}
    (h : r = a.toInt + b.toInt ∨ r = a.toInt - b.toInt) :
    pcSaturate s rd x (BitVec.ofInt 34 r) = setOvIf (assignElem s rd x (sat32 r).1) (sat32 r).2 := by
  obtain ⟨ha, ha'⟩ := elem_toInt_bounds a
  obtain ⟨hb, hb'⟩ := elem_toInt_bounds b
  exact pcSaturate_ofInt s rd x (by omega) (by omega)

theorem pcKmmac_eq (u : Bool) (rd rs1 rs2 : Reg) (s : State) (x : Nat) (r : Elem × Bool)
    (h : r = sat32 ((elem (readX s rd) x).toInt + (pcHigh u (pcMres s rs1 rs2 x)).toInt)) :
    pcKmmac u rd rs1 rs2 s x = setOvIf (assignElem s rd x r.1) r.2 := by
  rw [pcKmmac, signExtend_add_signExtend, pcSaturate_ofInt_of_elems s rd x (.inl rfl), h]

theorem pcKmmsb_eq (u : Bool) (rd rs1 rs2 : Reg) (s : State) (x : Nat) (r : Elem × Bool)
    (h : r = sat32 ((elem (readX s rd) x).toInt - (pcHigh u (pcMres s rs1 rs2 x)).toInt)) :
    pcKmmsb u rd rs1 rs2 s x = setOvIf (assignElem s rd x r.1) r.2 := by
  rw [pcKmmsb, signExtend_sub_signExtend, pcSaturate_ofInt_of_elems s rd x (.inr rfl), h]

theorem pcKwmmul_eq (u : Bool) (rd rs1 rs2 : Reg) (s : State) (x : Nat) (r : Elem × Bool)
    (h : r = if bothMin (elem (readX s rs1) x) (elem (readX s rs2) x) then (0x7FFFFFFF, true)
      else (if u then (round34 (pcMres s rs1 rs2 x)).extractLsb' 1 32 else (pcMres s rs1 rs2 x).extractLsb' 31 32,
        false)) :
    pcKwmmul u rd rs1 rs2 s x = setOvIf (assignElem s rd x r.1) r.2 := by
  rw [pcKwmmul]
  by_cases hmin : bothMin (elem (readX s rs1) x) (elem (readX s rs2) x) = true
  · obtain ⟨ha, hb⟩ := (bothMin_iff _ _).mp hmin
    rw [if_neg (by simp [ha, hb]), h, if_pos hmin]
    rfl
  · have hne := hmin
    rw [bothMin_iff, Classical.not_and_iff_not_or_not] at hne
    rw [if_pos (hne.imp Ne.symm Ne.symm), h, if_neg hmin]
    cases u
    · simp
    · simp [round34]

/-- The Operations on one element assign the instruction's function of that element, and set `OV` if it is flagged. -/
theorem pcElement_eq (i : Instr) (s : State) (x : Nat) :
    pcElement i s x = setOvIf (assignElem s i.rd x (meaningAt i s x).1) (meaningAt i s x).2 := by
  cases i with
  | kmmac rd rs1 rs2 => exact pcKmmac_eq false rd rs1 rs2 s x _ (by rw [pcMres_eq_mul64]; rfl)
  | kmmacU rd rs1 rs2 => exact pcKmmac_eq true rd rs1 rs2 s x _ (by rw [pcMres_eq_mul64]; rfl)
  | kmmsb rd rs1 rs2 => exact pcKmmsb_eq false rd rs1 rs2 s x _ (by rw [pcMres_eq_mul64]; rfl)
  | kmmsbU rd rs1 rs2 => exact pcKmmsb_eq true rd rs1 rs2 s x _ (by rw [pcMres_eq_mul64]; rfl)
  | kwmmul rd rs1 rs2 => exact pcKwmmul_eq false rd rs1 rs2 s x _ (by rw [pcMres_eq_mul64]; rfl)
  | kwmmulU rd rs1 rs2 => exact pcKwmmul_eq true rd rs1 rs2 s x _ (by rw [pcMres_eq_mul64]; rfl)
  | smmul rd rs1 rs2 => rw [pcElement, pcSmmul, pcMres_eq_mul64]; rfl
  | smmulU rd rs1 rs2 => rw [pcElement, pcSmmul, pcMres_eq_mul64]; rfl

/-! ### Assignments in place, in any order (R47, R53) -/

/-- The elements of a value after the assignment of one. -/
theorem elem_setElem (v : XWord) {x y : Nat} (hx : x < 2) (hy : y < 2) (e : Elem) :
    elem (setElem v x e) y = if y = x then e else elem v y := by
  have hjoin : setElem v x e = joinElems .rv64 fun z => if z = x then e else elem v z := by
    unfold setElem joinElems elem
    interval_cases x <;> simp
  rw [hjoin, elem_joinElems .rv64 _ y hy]

theorem nelem_le_two (xl : Xlen) : xl.nelem ≤ 2 := by
  cases xl <;> decide

/-- A register after the Operations on one element. -/
theorem readX_pcElement (i : Instr) (s : State) (x : Nat) (j : Reg) : readX (pcElement i s x) j =
    if i.rd ≠ 0 ∧ j = i.rd then truncX s.params.xlen (setElem (readX s i.rd) x (meaningAt i s x).1)
    else readX s j := by
  rw [pcElement_eq, readX_setOvIf, assignElem, readX_writeX]

/-- The Operations on one element change no other element of any register. -/
theorem elem_readX_pcElement_of_ne (i : Instr) (s : State) {x y : Nat} (hx : x < s.params.xlen.nelem)
    (hy : y < s.params.xlen.nelem) (h : y ≠ x) (j : Reg) :
    elem (readX (pcElement i s x) j) y = elem (readX s j) y := by
  have htwo := nelem_le_two s.params.xlen
  rw [readX_pcElement]
  split
  next hj => rw [elem_truncX _ _ _ hy, elem_setElem _ (by omega) (by omega), if_neg h, hj.2]
  next => rfl

theorem meaningAt_pcElement_of_ne (i : Instr) (s : State) {x y : Nat} (hx : x < s.params.xlen.nelem)
    (hy : y < s.params.xlen.nelem) (h : y ≠ x) : meaningAt i (pcElement i s x) y = meaningAt i s y := by
  simp only [meaningAt, elem_readX_pcElement_of_ne i s hx hy h]

/-- A write sees only the elements of the value. -/
theorem writeX_congr_elems (s : State) (i : Reg) {u v : XWord} (h : ∀ e < s.params.xlen.nelem, elem u e = elem v e) :
    writeX s i u = writeX s i v := by
  have htrunc : truncX s.params.xlen u = truncX s.params.xlen v := by
    rw [← joinElems_elem, ← joinElems_elem, joinElems_congr _ _ _ h]
  rw [← writeX_truncX, htrunc, writeX_truncX]

theorem writeX_setOvIf (s : State) (f : Bool) (i : Reg) (v : XWord) :
    writeX (setOvIf s f) i v = setOvIf (writeX s i v) f := by
  cases f
  · rfl
  · exact writeX_setOv s true i v

theorem setOvIf_setOvIf (s : State) (f g : Bool) : setOvIf (setOvIf s f) g = setOvIf s (f || g) := by
  cases f <;> cases g <;> rfl

/-- The Operations on two elements write both of them at once, and set `OV` if either is flagged. -/
theorem pcElement_pcElement (i : Instr) (s : State) {x y : Nat} (hx : x < s.params.xlen.nelem)
    (hy : y < s.params.xlen.nelem) (h : y ≠ x) : pcElement i (pcElement i s x) y =
      setOvIf (writeX s i.rd (setElem (setElem (readX s i.rd) x (meaningAt i s x).1) y (meaningAt i s y).1))
        ((meaningAt i s x).2 || (meaningAt i s y).2) := by
  have htwo := nelem_le_two s.params.xlen
  rw [pcElement_eq i _ y, meaningAt_pcElement_of_ne i s hx hy h, assignElem, readX_pcElement, pcElement_eq, assignElem,
    writeX_setOvIf, setOvIf_setOvIf, writeX_writeX]
  by_cases hrd : i.rd = 0
  · simp [hrd]
  · rw [if_pos ⟨hrd, rfl⟩]
    refine congrArg (setOvIf · _) (writeX_congr_elems s i.rd fun e he => ?_)
    rw [elem_setElem _ (by omega) (by omega), elem_setElem _ (by omega) (by omega), elem_truncX _ _ _ he]

/-- An instruction writes any value that has its elements, and sets `OV` if one is flagged. -/
theorem exec_eq_of_elems (i : Instr) (s : State) {v : XWord} {f : Bool}
    (hv : ∀ e < s.params.xlen.nelem, elem v e = (meaningAt i s e).1)
    (hf : f = anyElem s.params.xlen fun e => (meaningAt i s e).2) :
    exec i s = .next (advancePc (setOvIf (writeX s i.rd v) f)) := by
  have hval := writeX_congr_elems s i.rd fun e he =>
    (elem_laneMap3 _ (elemMeaning i) (readX s i.rd) (readX s i.rs1) (readX s i.rs2) e he).trans (hv e he).symm
  rw [exec_eq_elemMeaning, retire, hval, hf]
  rfl

/-- On RV32 the Operations assign the one element. -/
theorem exec_eq_pcElement (i : Instr) (s : State) (hxlen : s.params.xlen = .rv32) :
    exec i s = .next (advancePc (pcElement i s 0)) := by
  rw [pcElement_eq, assignElem]
  apply exec_eq_of_elems
  · intro e he
    obtain rfl : e = 0 := by simpa [hxlen, Xlen.nelem] using he
    rw [elem_setElem _ (by decide) (by decide), if_pos rfl]
  · rw [hxlen]; rfl

/-- On RV64 the Operations assign the two elements, in either order. -/
theorem exec_eq_pcElement_pcElement (i : Instr) (s : State) (hxlen : s.params.xlen = .rv64) {x y : Nat}
    (hxy : x = 0 ∧ y = 1 ∨ x = 1 ∧ y = 0) : exec i s = .next (advancePc (pcElement i (pcElement i s x) y)) := by
  have htwo : s.params.xlen.nelem = 2 := by rw [hxlen]; rfl
  rw [pcElement_pcElement i s (by omega) (by omega) (by omega)]
  apply exec_eq_of_elems
  · intro e he
    rw [elem_setElem _ (by omega) (by omega), elem_setElem _ (by omega) (by omega)]
    obtain rfl | ⟨hne, rfl⟩ : e = y ∨ e ≠ y ∧ e = x := by omega
    · rw [if_pos rfl]
    · rw [if_neg hne, if_pos rfl]
  · rw [hxlen]
    obtain ⟨rfl, rfl⟩ | ⟨rfl, rfl⟩ := hxy
    · rfl
    · rw [Bool.or_comm]; rfl

/-- Settles O45: the orders are `[0]` on RV32, and `[0, 1]` and `[1, 0]` on RV64. -/
theorem meaningsEqualSourceOperations : Obligations.MeaningsEqualSourceOperations := by
  intro i s order hperm
  cases hxlen : s.params.xlen with
  | rv32 =>
    rw [hxlen] at hperm
    obtain rfl : order = [0] := List.perm_singleton.mp hperm
    exact exec_eq_pcElement i s hxlen
  | rv64 =>
    rw [hxlen] at hperm
    obtain rfl | rfl : order = [0, 1] ∨ order = [1, 0] := List.perm_pair.mp hperm
    · exact exec_eq_pcElement_pcElement i s hxlen (.inl ⟨rfl, rfl⟩)
    · exact exec_eq_pcElement_pcElement i s hxlen (.inr ⟨rfl, rfl⟩)

end Sys2Proof.Machine
end

section
/-! PROOFS. KMMAC, KMMAC.u, KMMSB and KMMSB.u (41_kmmac_kmmsb.md R56 to R59). What a next state shows of the
instruction's function on elements is said once for all eight instructions; the four of this family are the case where
that function saturates an exact integer (`exec_of_sat32`), and they differ in the integer only. -/

namespace Sys2Proof.Machine

/-! ### What a next state shows of the function on elements -/

/-- The destination reads as the integers of the function's values, or as zero if it is `x0` (R11, R47). -/
theorem rdHolds_of_exec {i : Instr} {s t : State} {f : Nat → Int} (h : exec i s = .next t)
    (hf : ∀ e < s.params.xlen.nelem, (meaningAt i s e).1.toInt = f e) : rdHolds s t i.rd f := by
  by_cases hrd : i.rd = 0
  · rw [rdHolds, if_pos hrd, hrd, readX_zero]
  · rw [rdHolds, if_neg hrd]
    intro e he
    rw [elemInt, elem_readX_of_exec hrd he h, hf e he]

/-- `OV` is set if it was or if the function flags some element, also at `rd = x0` (R52, R55). -/
theorem ovSetIf_of_exec {i : Instr} {s t : State} {p : Nat → Prop} (h : exec i s = .next t)
    (hp : ∀ e < s.params.xlen.nelem, (meaningAt i s e).2 = true ↔ p e) : ovSetIf s t p := by
  rw [exec_eq_elemMeaning] at h
  cases h
  rw [ovSetIf, retire_ov, Bool.or_eq_true, laneMap3_flag]
  exact or_congr_right (exists_congr fun e => and_congr_right (hp e))

theorem pcAdvanced_of_exec {i : Instr} {s t : State} (h : exec i s = .next t) : pcAdvanced s t := by
  obtain ⟨r, rfl, -⟩ := exec_next_retire h
  exact readPc_retire s i.rd r

theorem sameButRdOvPc_of_exec {i : Instr} {s t : State} (h : exec i s = .next t) : sameButRdOvPc s t i.rd := by
  obtain ⟨r, rfl, -⟩ := exec_next_retire h
  exact ⟨readX_retire_other s i.rd r, retire_params .., retire_mark .., fun a => by rw [retire_text]⟩

/-! ### The instructions that saturate an exact integer -/

/-- An instruction that saturates the integer `r e` in each element `e` completes with the integers clamped, and with
`OV` set if one of them was outside the range (R51, R52). -/
theorem exec_of_sat32 (i : Instr) (s : State) (r : Nat → Int) (h : ∀ e, meaningAt i s e = sat32 (r e)) :
    ∃ t, exec i s = .next t ∧ rdHolds s t i.rd (fun e => clampQ31 (r e)) ∧
      ovSetIf s t (fun e => outsideQ31 (r e)) ∧ pcAdvanced s t ∧ sameButRdOvPc s t i.rd := by
  have hexec := exec_eq_elemMeaning i s
  refine ⟨_, hexec, rdHolds_of_exec hexec fun e _ => ?_, ovSetIf_of_exec hexec fun e _ => ?_,
    pcAdvanced_of_exec hexec, sameButRdOvPc_of_exec hexec⟩
  · rw [h]
    exact (sat32Saturates (r e)).1
  · rw [h]
    exact (sat32Saturates (r e)).2

/-- The exact sum of KMMAC is with the floor of the product over `2^32` (R48, R56). -/
theorem meaningAt_kmmac (rd rs1 rs2 : Reg) (s : State) (e : Nat) : meaningAt (.kmmac rd rs1 rs2) s e =
    sat32 (elemInt s rd e + elemProduct s rs1 rs2 e / 2 ^ 32) := by
  rw [elemProduct, ← hi_toInt]
  rfl

/-- The exact sum of KMMAC.u is with the rounded quotient (R49, R57). -/
theorem meaningAt_kmmacU (rd rs1 rs2 : Reg) (s : State) (e : Nat) : meaningAt (.kmmacU rd rs1 rs2) s e =
    sat32 (elemInt s rd e + (elemProduct s rs1 rs2 e + 2 ^ 31) / 2 ^ 32) := by
  rw [elemProduct, ← hiu_toInt]
  rfl

/-- The exact difference of KMMSB is with the floor of the product over `2^32` (R48, R58). -/
theorem meaningAt_kmmsb (rd rs1 rs2 : Reg) (s : State) (e : Nat) : meaningAt (.kmmsb rd rs1 rs2) s e =
    sat32 (elemInt s rd e - elemProduct s rs1 rs2 e / 2 ^ 32) := by
  rw [elemProduct, ← hi_toInt]
  rfl

/-- The exact difference of KMMSB.u is with the rounded quotient (R49, R59). -/
theorem meaningAt_kmmsbU (rd rs1 rs2 : Reg) (s : State) (e : Nat) : meaningAt (.kmmsbU rd rs1 rs2) s e =
    sat32 (elemInt s rd e - (elemProduct s rs1 rs2 e + 2 ^ 31) / 2 ^ 32) := by
  rw [elemProduct, ← hiu_toInt]
  rfl

/-- Settles O30: KMMAC saturates the exact sum with the floor of the product over `2^32`. -/
theorem kmmacAddsHighWordSaturating : Obligations.KmmacAddsHighWordSaturating := fun rd rs1 rs2 s =>
  exec_of_sat32 _ s _ (meaningAt_kmmac rd rs1 rs2 s)

/-- Settles O31: KMMAC.u saturates the exact sum with the rounded quotient. -/
theorem kmmacUAddsRoundedWordSaturating : Obligations.KmmacUAddsRoundedWordSaturating := fun rd rs1 rs2 s =>
  exec_of_sat32 _ s _ (meaningAt_kmmacU rd rs1 rs2 s)

/-- Settles O32: KMMSB saturates the exact difference with the floor of the product over `2^32`. -/
theorem kmmsbSubtractsHighWordSaturating : Obligations.KmmsbSubtractsHighWordSaturating := fun rd rs1 rs2 s =>
  exec_of_sat32 _ s _ (meaningAt_kmmsb rd rs1 rs2 s)

/-- Settles O33: KMMSB.u saturates the exact difference with the rounded quotient. -/
theorem kmmsbUSubtractsRoundedWordSaturating : Obligations.KmmsbUSubtractsRoundedWordSaturating := fun rd rs1 rs2 s =>
  exec_of_sat32 _ s _ (meaningAt_kmmsbU rd rs1 rs2 s)

end Sys2Proof.Machine
end

section
/-! PROOFS. KWMMUL and KWMMUL.u (42_kwmmul.md R60, R61). Each form saturates an exact integer, the doubled product over
`2^32`, plain or rounded (`kwmmulElem_eq_sat32`, `kwmmulUElem_eq_sat32`): every pair but `0x80000000` times itself keeps
it inside the range. So the four statements are about that integer. -/

namespace Sys2Proof.Machine

/-! ### The doubled product -/

/-- Any pair but `0x80000000` times itself has a factor of absolute value at most `2^31 - 1`. -/
theorem product_le_of_not_bothMin {a b : Elem} (h : ¬ bothMin a b = true) : product a b ≤ 2 ^ 62 - 2 ^ 31 := by
  obtain ⟨ha, ha'⟩ := elem_toInt_bounds a
  obtain ⟨hb, hb'⟩ := elem_toInt_bounds b
  rw [bothMin_iff, ← elem_toInt_eq_min_iff, ← elem_toInt_eq_min_iff, Classical.not_and_iff_not_or_not] at h
  rcases h with hne | hne
  · exact product_le_mul (m := 2147483647) (by omega) ha'
  · rw [product_comm]
    exact product_le_mul (m := 2147483647) (by omega) hb'

/-- The slice 62:31 is the doubled product over `2^32` (R60). -/
theorem doubledWord_eq_ofInt (a b : Elem) :
    (mul64 a b).extractLsb' 31 32 = BitVec.ofInt 32 (2 * product a b / 2 ^ 32) := by
  rw [extractLsb'_eq_ofInt _ (by decide), toInt_mul64]
  exact congrArg (BitVec.ofInt 32) (by omega)

/-- The sum in 34 bits loses no carry. -/
theorem toInt_round34_mul64 (a b : Elem) : (round34 (mul64 a b)).toInt = product a b / 2 ^ 30 + 1 := by
  have hlo := le_product a b
  have hhi := product_le a b
  have hround : round34 (mul64 a b) = BitVec.ofInt 34 (product a b / 2 ^ 30 + 1) := by
    rw [round34, extractLsb'_eq_ofInt _ (by decide), toInt_mul64, BitVec.ofInt_add]
    rfl
  rw [hround]
  exact BitVec.toInt_ofInt_eq_self (by decide) (by omega) (by omega)

/-- The rounded word is the doubled product plus half a unit, over `2^32` (R61). -/
theorem roundedDoubledWord_eq_ofInt (a b : Elem) :
    (round34 (mul64 a b)).extractLsb' 1 32 = BitVec.ofInt 32 ((2 * product a b + 2 ^ 31) / 2 ^ 32) := by
  rw [extractLsb'_eq_ofInt _ (by decide), toInt_round34_mul64]
  exact congrArg (BitVec.ofInt 32) (by omega)

/-- The operand test of KWMMUL is the range test of the doubled product (R60, [derived]). -/
theorem kwmmulElem_eq_sat32 (a b : Elem) : kwmmulElem a b = sat32 (2 * product a b / 2 ^ 32) := by
  by_cases hmin : bothMin a b = true
  · obtain ⟨rfl, rfl⟩ := (bothMin_iff a b).mp hmin
    decide
  · have hlo := le_product a b
    have hhi := product_le_of_not_bothMin hmin
    rw [kwmmulElem, if_neg hmin, doubledWord_eq_ofInt, sat32_of_inside (by omega) (by omega)]

/-- The operand test of KWMMUL.u is the range test of the rounded value: rounding never overflows (R61, [derived]). -/
theorem kwmmulUElem_eq_sat32 (a b : Elem) : kwmmulUElem a b = sat32 ((2 * product a b + 2 ^ 31) / 2 ^ 32) := by
  by_cases hmin : bothMin a b = true
  · obtain ⟨rfl, rfl⟩ := (bothMin_iff a b).mp hmin
    decide
  · have hlo := le_product a b
    have hhi := product_le_of_not_bothMin hmin
    rw [kwmmulUElem, if_neg hmin, roundedDoubledWord_eq_ofInt, sat32_of_inside (by omega) (by omega)]

/-! ### The doubled product, saturated (R60, R61) -/

theorem meaningAt_kwmmul (rd rs1 rs2 : Reg) (s : State) (e : Nat) : meaningAt (.kwmmul rd rs1 rs2) s e =
    sat32 (2 * elemProduct s rs1 rs2 e / 2 ^ 32) :=
  kwmmulElem_eq_sat32 _ _

theorem meaningAt_kwmmulU (rd rs1 rs2 : Reg) (s : State) (e : Nat) : meaningAt (.kwmmulU rd rs1 rs2) s e =
    sat32 ((2 * elemProduct s rs1 rs2 e + 2 ^ 31) / 2 ^ 32) :=
  kwmmulUElem_eq_sat32 _ _

theorem kwmmulElem_flag_iff (a b : Elem) : (kwmmulElem a b).2 = true ↔ a = 0x80000000 ∧ b = 0x80000000 := by
  rw [kwmmulElem_flag, bothMin_iff]

theorem kwmmulUElem_flag_iff (a b : Elem) : (kwmmulUElem a b).2 = true ↔ a = 0x80000000 ∧ b = 0x80000000 := by
  rw [kwmmulUElem_flag, bothMin_iff]

/-- Settles O34: KWMMUL saturates the doubled product, and its flag is the operand test. -/
theorem kwmmulDoublesSaturating : Obligations.KwmmulDoublesSaturating := by
  intro rd rs1 rs2 s
  obtain ⟨t, hexec, hrd, hov, hpc, hframe⟩ := exec_of_sat32 _ s _ (meaningAt_kwmmul rd rs1 rs2 s)
  exact ⟨t, hexec, hrd, ovSetIf_of_exec hexec fun _ _ => kwmmulElem_flag_iff _ _, hov, hpc, hframe⟩

/-- Settles O35: KWMMUL.u saturates the rounded doubled product, and its flag is the operand test. -/
theorem kwmmulURoundsDoubledSaturating : Obligations.KwmmulURoundsDoubledSaturating := by
  intro rd rs1 rs2 s
  obtain ⟨t, hexec, hrd, hov, hpc, hframe⟩ := exec_of_sat32 _ s _ (meaningAt_kwmmulU rd rs1 rs2 s)
  exact ⟨t, hexec, hrd, ovSetIf_of_exec hexec fun _ _ => kwmmulUElem_flag_iff _ _, hov, hpc, hframe⟩

/-! ### Where the two forms differ (R61) -/

/-- Instructions with one destination and the same function at every element are the same in the state. -/
theorem exec_congr_meaningAt {i j : Instr} {s : State} (hrd : i.rd = j.rd)
    (h : ∀ e < s.params.xlen.nelem, meaningAt i s e = meaningAt j s e) : exec i s = exec j s := by
  rw [exec_eq_elemMeaning, exec_eq_elemMeaning, laneMap3_congr _ _ _ _ _ _ _ _ _ h, hrd]

/-- Instructions that are the same in the state give the same elements to their destination. -/
theorem meaningAt_fst_eq_of_exec_eq {i j : Instr} {s : State} (hrd : i.rd = j.rd) (hne : i.rd ≠ 0)
    (h : exec i s = exec j s) {e : Nat} (he : e < s.params.xlen.nelem) :
    (meaningAt i s e).1 = (meaningAt j s e).1 := by
  have hexec := exec_eq_elemMeaning i s
  have hval := elem_readX_of_exec (hrd ▸ hne) he (h.symm.trans hexec)
  rw [← hrd] at hval
  exact (elem_readX_of_exec hne he hexec).symm.trans hval

/-- Half a unit carries into the doubled word exactly when bit 30 of the product is 1. -/
theorem roundedDoubled_eq (a b : Elem) : (2 * product a b + 2 ^ 31) / 2 ^ 32 =
    2 * product a b / 2 ^ 32 + if (mul64 a b).getLsbD 30 then 1 else 0 := by
  have hbit := getLsbD_iff_toInt (mul64 a b) (k := 30) (by decide)
  rw [toInt_mul64] at hbit
  split
  next h => rw [hbit] at h; omega
  next h => rw [hbit] at h; omega

/-- Without the carry the forms saturate one integer. -/
theorem kwmmulUElem_eq_of_bit30 {a b : Elem} (h : (mul64 a b).getLsbD 30 = false) :
    kwmmulUElem a b = kwmmulElem a b := by
  rw [kwmmulUElem_eq_sat32, kwmmulElem_eq_sat32, roundedDoubled_eq, if_neg (Bool.eq_false_iff.mp h), add_zero]

/-- With the carry the pair is not `0x80000000` times itself, so both integers are inside the range. -/
theorem kwmmulUElem_fst_ne_of_bit30 {a b : Elem} (h : (mul64 a b).getLsbD 30 = true) :
    (kwmmulUElem a b).1 ≠ (kwmmulElem a b).1 := by
  have hmin : ¬ bothMin a b = true := by
    intro hmin
    obtain ⟨rfl, rfl⟩ := (bothMin_iff a b).mp hmin
    exact absurd h (by decide)
  have hlo := le_product a b
  have hhi := product_le_of_not_bothMin hmin
  have hcarry := roundedDoubled_eq a b
  rw [if_pos h] at hcarry
  rw [ne_eq, ← BitVec.toInt_inj, kwmmulUElem_eq_sat32, kwmmulElem_eq_sat32, (sat32Saturates _).1,
    (sat32Saturates _).1, clampQ31_of_inside (by omega) (by omega), clampQ31_of_inside (by omega) (by omega)]
  omega

/-- Settles O52: an element with bit 30 tells the forms apart; without one they agree at every element. -/
theorem kwmmulFormsDifferExactlyAtBit30 : Obligations.KwmmulFormsDifferExactlyAtBit30 := by
  intro rd rs1 rs2 s hrd
  constructor
  · intro hdiff
    by_contra hbits
    refine hdiff (exec_congr_meaningAt rfl fun e he => kwmmulUElem_eq_of_bit30 ?_)
    exact Bool.eq_false_iff.mpr fun hbit => hbits ⟨e, he, hbit⟩
  · rintro ⟨e, he, hbit⟩ heq
    have hfst := meaningAt_fst_eq_of_exec_eq (i := .kwmmulU rd rs1 rs2) (j := .kwmmul rd rs1 rs2) rfl hrd heq he
    exact kwmmulUElem_fst_ne_of_bit30 hbit hfst

/-! ### The minimum is never a result (R60, R61) -/

/-- Saturation gives the minimum only to integers at or below it. -/
theorem sat32_fst_ne_min {r : Int} (h : -2147483648 < r) : (sat32 r).1 ≠ 0x80000000 := by
  rw [ne_eq, ← elem_toInt_eq_min_iff, (sat32Saturates r).1, clampQ31]
  omega

theorem kwmmulElem_fst_ne_min (a b : Elem) : (kwmmulElem a b).1 ≠ 0x80000000 := by
  have hlo := le_product a b
  rw [kwmmulElem_eq_sat32]
  exact sat32_fst_ne_min (by omega)

theorem kwmmulUElem_fst_ne_min (a b : Elem) : (kwmmulUElem a b).1 ≠ 0x80000000 := by
  have hlo := le_product a b
  rw [kwmmulUElem_eq_sat32]
  exact sat32_fst_ne_min (by omega)

/-- Settles O53: the least product, doubled, over `2^32` is `-2^31 + 1`. -/
theorem kwmmulNeverGivesMinimum : Obligations.KwmmulNeverGivesMinimum := by
  rintro i rd rs1 rs2 s t e hrd he (rfl | rfl) hexec
  · exact (elem_readX_of_exec (i := .kwmmul rd rs1 rs2) hrd he hexec).trans_ne (kwmmulElem_fst_ne_min _ _)
  · exact (elem_readX_of_exec (i := .kwmmulU rd rs1 rs2) hrd he hexec).trans_ne (kwmmulUElem_fst_ne_min _ _)

end Sys2Proof.Machine
end

section
/-! PROOFS. SMMUL and SMMUL.u (43_smmul.md R62 to R64). Neither can set `OV`, so each completes with the integers of its
function on elements (`exec_of_canSetOv_false`); the two differ in the integer only. On RV32 the one element is the
whole register, so SMMUL writes what `mulh` writes (`laneValues2_hi_rv32`). -/

namespace Sys2Proof.Machine

/-! ### The instructions that cannot set `OV` (R62, R63) -/

/-- An instruction that cannot set `OV` and whose value in each element `e` is the integer `f e` completes with those
integers and `OV` as before. -/
theorem exec_of_canSetOv_false (i : Instr) (s : State) (f : Nat → Int) (hplain : i.canSetOv = false)
    (h : ∀ e, (meaningAt i s e).1.toInt = f e) :
    ∃ t, exec i s = .next t ∧ rdHolds s t i.rd f ∧ t.ov = s.ov ∧ pcAdvanced s t ∧ sameButRdOvPc s t i.rd := by
  have hexec := exec_eq_elemMeaning i s
  obtain ⟨-, -, hov, -⟩ := frameOfPlainMultiplies i s _ hplain hexec
  exact ⟨_, hexec, rdHolds_of_exec hexec fun e _ => h e, hov, pcAdvanced_of_exec hexec, sameButRdOvPc_of_exec hexec⟩

/-- Settles O36: the value of SMMUL in an element is the floor of the product over `2^32`. -/
theorem smmulWritesHighWord : Obligations.SmmulWritesHighWord := fun rd rs1 rs2 s =>
  exec_of_canSetOv_false (.smmul rd rs1 rs2) s _ rfl fun _ => hi_toInt _ _

/-- Settles O37: the value of SMMUL.u in an element is the rounded quotient. -/
theorem smmulUWritesRoundedWord : Obligations.SmmulUWritesRoundedWord := fun rd rs1 rs2 s =>
  exec_of_canSetOv_false (.smmulU rd rs1 rs2) s _ rfl fun _ => hiu_toInt _ _

/-! ### SMMUL and `mulh` (R64) -/

/-- On RV32 the signed value of a register is that of its one element. -/
theorem sintX_rv32 (v : XWord) : sintX .rv32 v = (elem v 0).toInt :=
  congrArg BitVec.toInt (BitVec.setWidth_eq_extractLsb' (by decide))

/-- On RV32 the high word of the one product is the upper half of the product of the registers. -/
theorem laneValues2_hi_rv32 (a b : XWord) : laneValues2 .rv32 hi a b = mulhValue .rv32 a b := by
  calc laneValues2 .rv32 hi a b
      = (BitVec.ofInt 32 (product (elem a 0) (elem b 0) / 2 ^ 32)).setWidth 64 := by
        rw [← hi_eq_ofInt]; rfl
    _ = truncX .rv32 (BitVec.ofInt 64 (product (elem a 0) (elem b 0) / 2 ^ 32)) :=
        congrArg (BitVec.setWidth 64) (setWidth_ofInt (by decide) _).symm
    _ = mulhValue .rv32 a b := by
        rw [mulhValue, sintX_rv32, sintX_rv32]; rfl

/-- An RV64 state with `x6` and `x7` both `2^32`: the element products are 0 and 1, with high words 0, and the product
of the registers is `2^64`, with upper half 1. -/
def mulhWitness : State := writeX (writeX State.reset 6 0x100000000) 7 0x100000000

/-- Settles O49: on RV32 the written values are equal; on RV64 `mulhWitness` tells them apart. -/
theorem smmulIsMulhOnRv32Only : Obligations.SmmulIsMulhOnRv32Only := by
  constructor
  · intro rd rs1 rs2 s hxlen
    rw [exec_smmul, hxlen, laneValues2_hi_rv32, ← retireNoFlag_eq_retire, retireNoFlag]
  · have hsmmul : laneValues2 .rv64 hi (readX mulhWitness 6) (readX mulhWitness 7) = 0 := by decide
    have hmulh : mulhValue .rv64 (readX mulhWitness 6) (readX mulhWitness 7) = 1 := by decide
    have hxlen : mulhWitness.params.xlen = .rv64 := rfl
    refine ⟨mulhWitness, _, hxlen, exec_smmul 5 6 7 mulhWitness, ?_⟩
    rw [readX_retire, if_pos (by decide), hxlen, hsmmul, hmulh]
    decide

end Sys2Proof.Machine
end

section
/-! PROOFS. The step and the run (44_control_memory_system.md R69): what a step runs and what it has done when it goes on,
that it is over at the end of the text, that a recorded mark is kept, and that a text of decodable words makes
progress. -/

namespace Sys2Proof.Machine

/-! ### A step runs one instruction -/

/-- With the parameters accepted, the next word is the one that `Fetch` answers: inside the text the run is not over. -/
theorem nextWord_of_fetchWord {s : State} {w : Word32} (hacc : s.Accepted)
    (hfetch : fetchWord s (readPc s).toNat = some w) : nextWord s = .ok w := by
  obtain ⟨hmark, halign, htop⟩ := hacc
  obtain ⟨-, hlt, -, -⟩ := fetchWord_some_inv s _ w hfetch
  exact (nextWord_ok_iff s w).mpr ⟨hmark, halign, htop, Nat.ne_of_lt hlt, hfetch⟩

/-- A step whose next word decodes runs the decoded instruction. -/
theorem step_of_nextWord_ok {s : State} {w : Word32} {i : Instr} (hword : nextWord s = .ok w)
    (hdecode : decode s.params w = .ok i) : step s = exec i s :=
  step_of_nextInstr s i ((nextInstr_ok_iff s i).mpr ⟨w, hword, hdecode⟩)

/-- Settles O6: the fetched word is the next word. -/
theorem stepRunsDecodedInstruction : Obligations.StepRunsDecodedInstruction := by
  intro s w i hacc hfetch hdecode
  exact step_of_nextWord_ok (nextWord_of_fetchWord hacc hfetch) hdecode

/-- Settles O12: the step ran an instruction (`step_next_inv`), and `nextWord_ok_iff` says when there is a word for it. -/
theorem nextStateComesFromOneInstruction : Obligations.NextStateComesFromOneInstruction := by
  intro s t hstep
  obtain ⟨i, hi, hexec⟩ := step_next_inv s t hstep
  obtain ⟨w, hword, hdecode⟩ := (nextInstr_ok_iff s i).mp hi
  obtain ⟨hmark, halign, htop, hnotFinal, hfetch⟩ := (nextWord_ok_iff s w).mp hword
  exact ⟨⟨hmark, halign, htop⟩, hnotFinal, w, i, hfetch, hdecode, hexec⟩

/-! ### The end of the text and a recorded mark -/

/-- Settles O8: at the end of the text `nextWord` answers that the run is over (log 10). -/
theorem stepAtEndOfTextIsOver : Obligations.StepAtEndOfTextIsOver := by
  intro s hacc hfin
  exact step_of_nextWord_error (nextWord_of_final hacc hfin)

/-- A recorded mark is what the step stops with (log 13). -/
theorem step_of_mark {s : State} {m : Mark} (h : s.mark = some m) : step s = stopWith m :=
  step_of_nextWord_error (by simp [nextWord, h])

theorem stopWith_ne_next (m : Mark) (t : State) : stopWith m ≠ .next t := by
  cases m <;> exact nofun

theorem recordMark_of_mark {s : State} {m : Mark} (h : s.mark = some m) : recordMark s m = s := by
  rw [recordMark, setMark, ← h]

/-- A move from a state with a recorded mark leaves it unchanged: it records the same mark again, or nothing. -/
theorem runOne_of_mark {s : State} {m : Mark} (h : s.mark = some m) : runOne s = s := by
  unfold runOne
  rw [step_of_mark h]
  cases m with
  | refused r => exact recordMark_of_mark h
  | faulted f =>
    cases f with
    | runOver => rfl
    | stuck => exact recordMark_of_mark h

theorem run_of_runOne_eq_self {s : State} (h : runOne s = s) (n : Nat) : run n s = s := by
  induction n with
  | zero => rfl
  | succ n ih => rw [run, h, ih]

/-- Settles O11: the state after the move has the mark `m`, which stops the step and every later move. -/
theorem recordedStopIsKept : Obligations.RecordedStopIsKept := by
  intro s n m hrecord
  have hmark : (runOne s).mark = some m := by rw [hrecord]; rfl
  constructor
  · intro t
    rw [step_of_mark hmark]
    exact stopWith_ne_next m t
  · exact run_of_runOne_eq_self (runOne_of_mark hmark) n

/-! ### Progress on a text of decodable words (R84) -/

theorem decodableAt_iff (s : State) (k : Nat) :
    decodableAt s k = true ↔ ∃ w i, programWord s k = some w ∧ decode s.params w = .ok i := by
  unfold decodableAt
  cases programWord s k with
  | none => simp
  | some w => cases hd : decode s.params w <;> simp [hd]

/-- The end of an instruction leaves what decodes as it was. -/
theorem textDecodes_retire {s : State} (rd : Reg) (r : XWord × Bool) (h : s.TextDecodes) :
    (retire s rd r).TextDecodes := by
  intro j hj
  rw [decodableAt_iff, programWord_retire, retire_params, ← decodableAt_iff]
  exact h j (retire_params s rd r ▸ hj)

/-- Settles O59: word `k` is the next word and decodes, every instruction completes with a `retire` (`exec_retires`),
and a `retire` at word `k` is at word `k + 1` of the same text. -/
theorem decodableTextMakesProgress : Obligations.DecodableTextMakesProgress := by
  intro s k honText hdecodes hat hk
  have ⟨_, htop, _⟩ := honText
  obtain ⟨w, i, hw, hdecode⟩ := (decodableAt_iff s k).mp (hdecodes k hk)
  obtain ⟨w', hw', hword⟩ := nextWord_of_atWord honText hat hk
  obtain rfl : w = w' := Option.some.inj (hw.symm.trans hw')
  obtain ⟨r, hexec, -⟩ := exec_retires i s
  have hstep : step s = .next (retire s i.rd r) := (step_of_nextWord_ok hword hdecode).trans hexec
  exact ⟨_, hstep, onText_retire i.rd r honText hat hk, textDecodes_retire i.rd r hdecodes,
    atWord_retire i.rd r htop hat hk⟩

end Sys2Proof.Machine
end

section
/-! PROOFS. Exceptions (60_exceptions.md R70): the eight instructions have no failing case. -/

namespace Sys2Proof.Machine

/-- Settles O38: every instruction ends in its `retire` (`exec_retires`), whose `pc` is 4 further. -/
theorem everyInstructionCompletes : Obligations.EveryInstructionCompletes := by
  intro i s
  obtain ⟨_, hexec, -⟩ := exec_retires i s
  exact ⟨_, hexec, pcAdvanced_of_exec hexec⟩

end Sys2Proof.Machine
end

section
/-! PROOFS. Reset and hazards (70_reset_and_hazards.md R81, R84, R85): what a launch state holds, that a program of
decodable words is at its end after as many steps as it has words, and that an instruction reads what the one before
it left. -/

namespace Sys2Proof.Machine

/-! ### The launch state (R81) -/

theorem readX_launch (p : Params) (program : List Word32) (xInit : Vector XWord 32) (ovInit : Bool) {i : Reg}
    (h : i ≠ 0) : readX (launch p program xInit ovInit) i = truncX p.xlen xInit[i] := by
  rw [readX_of_ne _ i h, launch_x, if_neg h]
  exact truncX_truncX p.xlen _

/-- A launch puts `pc` at `ENTRY`. -/
theorem readPc_launch (p : Params) (program : List Word32) (xInit : Vector XWord 32) (ovInit : Bool) :
    (readPc (launch p program xInit ovInit)).toNat = entryAddr (launch p program xInit ovInit) := rfl

/-- Settles O1: the readings of the launch state; `OV` and the mark are fields of it as given. -/
theorem launchHasTheGivenValues : Obligations.LaunchHasTheGivenValues := by
  intro p program xInit ovInit
  exact ⟨readX_zero _, fun _ h => readX_launch p program xInit ovInit h, rfl, readPc_launch p program xInit ovInit,
    entryAddr_launch p program xInit ovInit, rfl⟩

/-! ### A program of decodable words (R84) -/

/-- The hart stands at word `k` of a text of `n` words that all decode (at its end, for `k = n`), able to run on. -/
def State.ReadyAt (s : State) (n k : Nat) : Prop :=
  s.OnText ∧ s.TextDecodes ∧ s.AtWord k ∧ s.params.textLen = n

/-- One step moves on by one word. -/
theorem step_of_readyAt {s : State} {n k : Nat} (h : s.ReadyAt n k) (hk : k < n) :
    ∃ t, step s = .next t ∧ t.ReadyAt n (k + 1) := by
  obtain ⟨honText, hdecodes, hat, hlen⟩ := h
  obtain ⟨t, hstep, honText', hdecodes', hat'⟩ := decodableTextMakesProgress s k honText hdecodes hat (hlen.symm ▸ hk)
  obtain ⟨-, rd, r, rfl⟩ := step_next_retire hstep
  exact ⟨_, hstep, honText', hdecodes', hat', (congrArg Params.textLen (retire_params s rd r)).trans hlen⟩

theorem runOne_of_step_next {s t : State} (h : step s = .next t) : runOne s = t := by
  rw [runOne, h]

/-- The host's run of a machine takes a step that goes on. -/
theorem run_succ_of_step_next (M : Host.Core) {s t : M.State} (h : M.step s = .next t) (m : Nat) :
    M.run (m + 1) s = M.run m t := by
  simp only [Host.Core.run, h]

/-- While words remain, `m` steps are `m` moves, and they move on by `m` words. -/
theorem run_of_readyAt {s : State} {n k m : Nat} (h : s.ReadyAt n k) (hm : k + m ≤ n) :
    Host.Core.run core m s = .next (run m s) ∧ (run m s).ReadyAt n (k + m) := by
  induction m generalizing s k with
  | zero => exact ⟨rfl, h⟩
  | succ m ih =>
    obtain ⟨t, hstep, ht⟩ := step_of_readyAt h (by omega)
    obtain ⟨hrun, hready⟩ := ih ht (by omega)
    rw [run, runOne_of_step_next hstep, show k + (m + 1) = k + 1 + m by omega]
    exact ⟨(run_succ_of_step_next core hstep m).trans hrun, hready⟩

/-- The run is over at the end of the text and nowhere before it. -/
theorem final_iff_of_readyAt {s : State} {n k : Nat} (h : s.ReadyAt n k) : s.Final ↔ k = n := by
  obtain ⟨-, -, ⟨-, hpc⟩, hlen⟩ := h
  rw [State.Final, hpc, endAddr, hlen]
  omega

/-- A launch of decodable words stands at the first of them. -/
theorem readyAt_launch {p : Params} {program : List Word32} (xInit : Vector XWord 32) (ovInit : Bool)
    (hwf : ({ p with textLen := program.length } : Params).wellFormed = true)
    (htop : p.entry.toNat + 4 * program.length < 2 ^ p.xlen.bits) (hdecodes : ∀ w ∈ program, ∃ i, decode p w = .ok i) :
    (launch p program xInit ovInit).ReadyAt program.length 0 := by
  obtain ⟨-, halign, hspace, -⟩ := (params_wellFormed_iff _).mp hwf
  have hentry : entryAddr (launch p program xInit ovInit) = p.entry.toNat := by
    rw [entryAddr_launch, truncX_of_lt _ _ hspace]
  have hword {k : Nat} (hk : k < program.length) :
      programWord (launch p program xInit ovInit) k = some program[k] := by
    rw [programWord_launch p program xInit ovInit hk, List.getElem?_eq_getElem hk]
  have hat : (launch p program xInit ovInit).AtWord 0 := ⟨Nat.zero_le _, readPc_launch p program xInit ovInit⟩
  refine ⟨⟨?_, ?_, fun k hk => ?_, ⟨0, hat⟩, rfl⟩, fun k hk => ?_, hat, rfl⟩
  · rwa [hentry]
  · rwa [endAddr, hentry]
  · rw [hword hk, Option.isSome_some]
  · obtain ⟨i, hi⟩ := hdecodes _ (List.getElem_mem hk)
    exact (decodableAt_iff _ k).mpr ⟨_, i, hword hk, hi⟩

/-- Settles O60: the launch stands at word 0 and each step moves on by one word, so after `n` steps, and not before,
the run is at the end of the text. -/
theorem decodableProgramEndsInItsLength : Obligations.DecodableProgramEndsInItsLength := by
  intro p program xInit ovInit hwf htop hdecodes
  have hlaunch := readyAt_launch xInit ovInit hwf htop hdecodes
  obtain ⟨hrun, hend⟩ := run_of_readyAt hlaunch (Nat.zero_add program.length).le
  have hfinal := (final_iff_of_readyAt hend).mpr (Nat.zero_add _)
  have ⟨honText, _⟩ := hend
  refine ⟨_, hrun, hfinal, rfl, stepAtEndOfTextIsOver _ (accepted_of_onText honText) hfinal, fun m hm hover => ?_⟩
  obtain ⟨-, hready⟩ := run_of_readyAt hlaunch (m := m) (by omega)
  have hlast := (final_iff_of_readyAt hready).mp hover
  omega

/-! ### A chain of two KMMAC (R85) -/

/-- What KMMAC leaves in an element of its destination. -/
theorem elemInt_of_exec_kmmac {rd rs1 rs2 : Reg} {s t : State} {e : Nat} (hrd : rd ≠ 0) (he : e < s.params.xlen.nelem)
    (h : exec (.kmmac rd rs1 rs2) s = .next t) :
    elemInt t rd e = clampQ31 (elemInt s rd e + elemProduct s rs1 rs2 e / 2 ^ 32) := by
  have hvalue : elem (readX t rd) e = (meaningAt (.kmmac rd rs1 rs2) s e).1 :=
    elem_readX_of_exec (i := .kmmac rd rs1 rs2) hrd he h
  rw [elemInt, hvalue, meaningAt_kmmac]
  exact (sat32Saturates _).1

/-- Settles O55: the second KMMAC accumulates on the element that the first one left, and its sources are not the
first one's destination, so they read as before. -/
theorem chainReadsWhatWasJustWritten : Obligations.ChainReadsWhatWasJustWritten := by
  intro rd a b c d s t u e hrd hc hd he ht hu
  obtain ⟨hother, hparams, -, -⟩ := sameButRdOvPc_of_exec ht
  have hproduct : elemProduct t c d e = elemProduct s c d e := by
    rw [elemProduct, elemProduct, hother c hc.symm, hother d hd.symm]
  rw [elemInt_of_exec_kmmac hrd (hparams.symm ▸ he) hu, elemInt_of_exec_kmmac hrd he ht, hproduct]

end Sys2Proof.Machine
end

section
/-! PROOFS. KMMAC beside KMMAC.u (41_kmmac_kmmsb.md R57, its last corner case): without a half unit to round they agree
(`kmmacUElem_eq_of_bit31`), but two sums that saturate can agree with one (log 25). -/

namespace Sys2Proof.Machine

/-! ### Without a half unit the forms agree -/

/-- Rounding adds nothing to the high word when the most significant discarded bit is 0 (R49). -/
theorem hiu_eq_hi_of_bit31 {a b : Elem} (h : (mul64 a b).getLsbD 31 = false) : hiu a b = hi a b := by
  obtain ⟨-, hround⟩ := roundedHighWordIsNearest a b
  rw [hround, if_neg (Bool.eq_false_iff.mp h), add_zero, BitVec.ofInt_toInt]

theorem kmmacUElem_eq_of_bit31 {a b : Elem} (d : Elem) (h : (mul64 a b).getLsbD 31 = false) :
    kmmacUElem d a b = kmmacElem d a b := by
  rw [kmmacUElem, kmmacElem, hiu_eq_hi_of_bit31 h]

/-- Settles O50: the forms have the same function at every element, so they retire the same result and flag. -/
theorem kmmacFormsAgreeWithoutHalfUnits : Obligations.KmmacFormsAgreeWithoutHalfUnits := by
  intro rd rs1 rs2 s hbits
  exact exec_congr_meaningAt rfl fun e he => kmmacUElem_eq_of_bit31 _ (hbits e he)

/-! ### Saturated sums agree with a half unit (log 25) -/

/-- An RV64 state with accumulator `x5 = 0x7FFFFFFF` and product `x6 * x7 = 0x180000000` in element 0: the high word is
1, or 2 when rounded, and adding either one passes the upper bound. Every element 1 is 0. -/
def halfUnitWitness : State :=
  writeX (writeX (writeX State.reset 5 0x7FFFFFFF) 6 0x00018000) 7 0x00010000

/-- Refutes O51: in `halfUnitWitness` both sums of element 0 saturate to `0x7FFFFFFF` with the flag set, so the forms
agree, and bit 31 of its product is 1. -/
theorem not_kmmacFormsAgreeOnlyWithoutHalfUnits : ¬ Obligations.KmmacFormsAgreeOnlyWithoutHalfUnits := by
  intro h
  have hsame : ∀ e < halfUnitWitness.params.xlen.nelem,
      meaningAt (.kmmacU 5 6 7) halfUnitWitness e = meaningAt (.kmmac 5 6 7) halfUnitWitness e := by decide
  have hagree : exec (.kmmacU 5 6 7) halfUnitWitness = exec (.kmmac 5 6 7) halfUnitWitness :=
    exec_congr_meaningAt rfl hsame
  have hbit : (mul64 (elem (readX halfUnitWitness 6) 0) (elem (readX halfUnitWitness 7) 0)).getLsbD 31 = true := by
    decide
  have hclear := h 5 6 7 halfUnitWitness (by decide) hagree 0 (by decide)
  exact Bool.false_ne_true (hclear.symm.trans hbit)

end Sys2Proof.Machine
end

section
/-! PROOFS. The host's placing of one word (log 5, log 18), and the words of 95_test_vectors.md section 3. -/

namespace Sys2Proof.Machine

/-! ### A loaded program of one word -/

/-- After loading a program, `ENTRY` is the one given, in its width. -/
theorem entryAddr_loadProgram (s : State) (entry : XWord) (program : List Word32) :
    entryAddr (loadProgram s entry program) = (truncX s.params.xlen entry).toNat :=
  congrArg BitVec.toNat (truncX_truncX s.params.xlen entry)

theorem endAddr_loadProgram (s : State) (entry : XWord) (program : List Word32) :
    endAddr (loadProgram s entry program) = (truncX s.params.xlen entry).toNat + 4 * program.length :=
  congrArg (· + 4 * program.length) (entryAddr_loadProgram s entry program)

/-- Loading a program puts its words in memory. -/
theorem programWord_loadProgram (s : State) (entry : XWord) {program : List Word32} {k : Nat}
    (h : k < program.length) : programWord (loadProgram s entry program) k = program[k]? := by
  rw [programWord, entryAddr_loadProgram]
  exact readWord_writeWords program [] _ k h

/-- A multiple of 4 in the address space leaves room for a whole word below the top. -/
theorem add_four_le_two_pow_bits {xl : Xlen} {n : Nat} (hlt : n < 2 ^ xl.bits) (halign : n % 4 = 0) :
    n + 4 ≤ 2 ^ xl.bits := by
  have htop := four_dvd_two_pow_bits xl
  omega

/-- With nothing recorded and `pc` at an aligned `ENTRY`, the one word loaded there is the next word. -/
theorem nextWord_loadProgram_singleton {s : State} {entry : XWord} (w : Word32) (hmark : s.mark = none)
    (hpc : readPc s = truncX s.params.xlen entry) (halign : (truncX s.params.xlen entry).toNat % 4 = 0) :
    nextWord (loadProgram s entry [w]) = .ok w := by
  have hentry := entryAddr_loadProgram s entry [w]
  have hpcEntry : (readPc (loadProgram s entry [w])).toNat = entryAddr (loadProgram s entry [w]) + 4 * 0 :=
    (congrArg BitVec.toNat hpc).trans hentry.symm
  have hroom : endAddr (loadProgram s entry [w]) ≤ 2 ^ s.params.xlen.bits := by
    rw [endAddr_loadProgram]
    exact add_four_le_two_pow_bits (truncX_lt _ _) halign
  refine nextWord_of_fetchWord ⟨hmark, hentry ▸ halign, hroom⟩ ?_
  rw [hpcEntry, fetchWord_word _ Nat.zero_lt_one, programWord_loadProgram s entry Nat.zero_lt_one]
  rfl

/-! ### Placing one word -/

/-- Clearing the two low bits and cutting to the width leaves a multiple of 4. -/
theorem truncX_clearLow_mod_four (xl : Xlen) (v : XWord) : (truncX xl (v &&& ~~~3)).toNat % 4 = 0 := by
  have hlow : (v &&& ~~~3).setWidth 2 = 0#2 := by
    rw [BitVec.setWidth_and, show (~~~3 : XWord).setWidth 2 = 0#2 by decide, BitVec.and_zero]
  have hclear : (v &&& ~~~3).toNat % 4 = 0 :=
    (BitVec.toNat_setWidth 2 _).symm.trans (congrArg BitVec.toNat hlow)
  rw [truncX_toNat, Nat.mod_mod_of_dvd _ (four_dvd_two_pow_bits xl), hclear]

/-- The placed word is the next word. -/
theorem nextWord_withFetchWord (s : State) (nbits w : Nat) :
    nextWord (s.withFetchWord nbits w) = .ok (tableWord nbits w) := by
  apply nextWord_loadProgram_singleton
  · rfl
  · rfl
  · simp only [setMark_params, setPc_params, setParams_params, truncX_truncX]
    exact truncX_clearLow_mod_four _ _

/-- Settles O13: the placed word is the next word; the decoder reads from the parameters what the placing keeps and
the width it chose, and the registers and the flag are not written. -/
theorem placedWordRunsNext : Obligations.PlacedWordRunsNext := by
  intro s nbits w i hdecode
  exact ⟨step_of_nextWord_ok (nextWord_withFetchWord s nbits w) hdecode, rfl, rfl⟩

/-! ### The words of the test vectors -/

/-- Settles O19: five of the words are the encodings of their instructions; the sixth has bits 31:30 `11`, so it lacks
the constant fields of the eight (R36). -/
theorem specWordsDecode : Obligations.SpecWordsDecode := by
  refine ⟨?_, ?_, ?_, ?_, ?_, ?_⟩
  · exact decode_encode resetParams (.kmmac 5 10 11) defaultEnc_wellFormed
  · exact decode_encode resetParams (.kmmsbU 5 10 11) defaultEnc_wellFormed
  · exact decode_encode resetParams (.kwmmulU 5 10 11) defaultEnc_wellFormed
  · exact decode_encode resetParams (.smmul 5 10 11) defaultEnc_wellFormed
  · exact decode_encode { resetParams with xlen := .rv32 } (.smmul 5 10 11) defaultEnc_wellFormed
  · rw [functFieldsSelectTheInstruction resetParams _ rfl rfl, if_neg (by decide)]

end Sys2Proof.Machine
end
